-- ==== Sys2Proof/Word.lean ====
section
/-! DEFINITION. The word types of the core (spec 00_scope.md R5): bytes of 8 bits, addresses and the program
counter of 16 bits. Byte-order and extension helpers stand with the files that use them (Decode, Machine/Operands). -/

namespace Sys2Proof

/-- A byte: a register, the flag register, an opcode, an operand byte, a memory cell (R5, R7: bit 0 is the least
significant, all values are unsigned). -/
abbrev Byte := BitVec 8

/-- A 16-bit address; arithmetic on it wraps modulo 65536 (R8, 20_memory.md R34). -/
abbrev Addr := BitVec 16

end Sys2Proof
end

