-- ==== Sys2Proof/Syntax.lean ====
section
/-! DEFINITION. Instructions: one constructor per row of spec/opcode_table.json (30_encoding.md R56, and R57 for the
catch-all row), with the registers and addressing modes the table speaks of. -/

namespace Sys2Proof

/-- The three general registers (10_state.md R10), the destinations of the loads. -/
inductive Reg where
  | A | X | Y
  deriving DecidableEq, Repr

/-- The two index registers; `A` is never an index (10_state.md R11 (b)). -/
inductive IndexReg where
  | X | Y
  deriving DecidableEq, Repr

/-- The addressing modes of 41_addressing_modes.md R88; the two indexed families carry their index register, so
there are nine variants. -/
inductive Mode where
  | immediate
  | zeroPage
  | zeroPageIndexed (idx : IndexReg)
  | absolute
  | absoluteIndexed (idx : IndexReg)
  | indexedIndirect
  | indirectIndexed
  deriving DecidableEq, Repr

/-- The instructions. `o` is the operand byte of format OP1 (R51, R54); `ea` and `base` are the 16-bit operand of
format OP2, already assembled from its two bytes (R52, R55). -/
inductive Instr where
  /-- `A9 o`, 42_lda.md R100. -/
  | ldaImmediate (o : Byte)
  /-- `A5 o`, R101. -/
  | ldaZeroPage (o : Byte)
  /-- `B5 o`, R102. -/
  | ldaZeroPageX (o : Byte)
  /-- `AD lo hi`, R103. -/
  | ldaAbsolute (ea : Addr)
  /-- `BD lo hi`, R104. -/
  | ldaAbsoluteX (base : Addr)
  /-- `B9 lo hi`, R105. -/
  | ldaAbsoluteY (base : Addr)
  /-- `A1 o`, R106. -/
  | ldaIndexedIndirect (o : Byte)
  /-- `B1 o`, R107. -/
  | ldaIndirectIndexed (o : Byte)
  /-- `A2 o`, 43_ldx.md R110. -/
  | ldxImmediate (o : Byte)
  /-- `A6 o`, R111. -/
  | ldxZeroPage (o : Byte)
  /-- `B6 o`, R112. -/
  | ldxZeroPageY (o : Byte)
  /-- `AE lo hi`, R113. -/
  | ldxAbsolute (ea : Addr)
  /-- `BE lo hi`, R114. -/
  | ldxAbsoluteY (base : Addr)
  /-- `A0 o`, 44_ldy.md R120. -/
  | ldyImmediate (o : Byte)
  /-- `A4 o`, R121. -/
  | ldyZeroPage (o : Byte)
  /-- `B4 o`, R122. -/
  | ldyZeroPageX (o : Byte)
  /-- `AC lo hi`, R123. -/
  | ldyAbsolute (ea : Addr)
  /-- `BC lo hi`, R124. -/
  | ldyAbsoluteX (base : Addr)
  /-- Any of the 238 other opcode bytes, format OP0 (R57, 40_interpreter.md R74). -/
  | unrecognized (op : Byte)
  deriving DecidableEq, Repr

end Sys2Proof
end

