-- ==== Sys2Proof/WellFormed.lean ====
section
/-! DEFINITION. Which terms of `Instr` stand for an instruction of the machine: a load with any operand, and
`unrecognized` of a byte the opcode map does not give to a load (30_encoding.md R57, R59). -/

namespace Sys2Proof

/-- The 18 opcode bytes of the loads, the match column of 30_encoding.md R56. -/
def loadOpcodes : List Byte :=
  [0xA9, 0xA5, 0xB5, 0xAD, 0xBD, 0xB9, 0xA1, 0xB1,
   0xA2, 0xA6, 0xB6, 0xAE, 0xBE,
   0xA0, 0xA4, 0xB4, 0xAC, 0xBC]

/-- The opcode byte is one of the 18 (R59). -/
def isLoadOpcode (op : Byte) : Bool := loadOpcodes.contains op

/-- The one check an instruction has: an unrecognized opcode is not the opcode of a load (R57). The operands of a
load are unconstrained (R54, R55). -/
def Instr.wf : Instr → Bool
  | .ldaImmediate _ => true
  | .ldaZeroPage _ => true
  | .ldaZeroPageX _ => true
  | .ldaAbsolute _ => true
  | .ldaAbsoluteX _ => true
  | .ldaAbsoluteY _ => true
  | .ldaIndexedIndirect _ => true
  | .ldaIndirectIndexed _ => true
  | .ldxImmediate _ => true
  | .ldxZeroPage _ => true
  | .ldxZeroPageY _ => true
  | .ldxAbsolute _ => true
  | .ldxAbsoluteY _ => true
  | .ldyImmediate _ => true
  | .ldyZeroPage _ => true
  | .ldyZeroPageX _ => true
  | .ldyAbsolute _ => true
  | .ldyAbsoluteX _ => true
  | .unrecognized op => !isLoadOpcode op

end Sys2Proof
end

