-- ==== Sys2Proof/Decode.lean ====
section
/-! DEFINITION. The opcode map (30_encoding.md R56), the decoder (R59) and the encoder. The decoder is total on any
list of bytes and refuses only a list that ends before the instruction does. -/

namespace Sys2Proof

/-- The 16-bit operand of format OP2 from its two bytes in stream order: the first is the low byte, the second the
high byte (R55; parameter ABS_ORDER, little-endian by D1: DESIGN CHOICE of the spec, log entry 6). -/
def operandAddr (b1 b2 : Byte) : Addr := b2 ++ b1

/-- The first operand byte of format OP2, the low byte (R52, R55). -/
def operandLow (a : Addr) : Byte := a.setWidth 8

/-- The second operand byte of format OP2, the high byte (R52, R55). -/
def operandHigh (a : Addr) : Byte := (a >>> 8).setWidth 8

/-- The format of a load: OP1 with one operand byte or OP2 with two (R51, R52), and the instruction made of the
operand. -/
inductive Form where
  | op1 (make : Byte → Instr)
  | op2 (make : Addr → Instr)

/-- How many operand bytes a format has (R51, R52). -/
def Form.operandBytes : Form → Nat
  | .op1 _ => 1
  | .op2 _ => 2

/-- A row of the opcode map: opcode, destination register, mode with its index register, format (R56). -/
structure OpcodeRow where
  opcode : Byte
  dst : Reg
  mode : Mode
  form : Form

/-- The 18 rows of R56, in its order. Fourteen of them rest on the family's opcode map (D2): log entry 4. -/
def opcodeRows : List OpcodeRow :=
  [⟨0xA9, .A, .immediate, .op1 .ldaImmediate⟩,
   ⟨0xA5, .A, .zeroPage, .op1 .ldaZeroPage⟩,
   ⟨0xB5, .A, .zeroPageIndexed .X, .op1 .ldaZeroPageX⟩,
   ⟨0xAD, .A, .absolute, .op2 .ldaAbsolute⟩,
   ⟨0xBD, .A, .absoluteIndexed .X, .op2 .ldaAbsoluteX⟩,
   ⟨0xB9, .A, .absoluteIndexed .Y, .op2 .ldaAbsoluteY⟩,
   ⟨0xA1, .A, .indexedIndirect, .op1 .ldaIndexedIndirect⟩,
   ⟨0xB1, .A, .indirectIndexed, .op1 .ldaIndirectIndexed⟩] ++
  [⟨0xA2, .X, .immediate, .op1 .ldxImmediate⟩,
   ⟨0xA6, .X, .zeroPage, .op1 .ldxZeroPage⟩,
   ⟨0xB6, .X, .zeroPageIndexed .Y, .op1 .ldxZeroPageY⟩,
   ⟨0xAE, .X, .absolute, .op2 .ldxAbsolute⟩,
   ⟨0xBE, .X, .absoluteIndexed .Y, .op2 .ldxAbsoluteY⟩] ++
  [⟨0xA0, .Y, .immediate, .op1 .ldyImmediate⟩,
   ⟨0xA4, .Y, .zeroPage, .op1 .ldyZeroPage⟩,
   ⟨0xB4, .Y, .zeroPageIndexed .X, .op1 .ldyZeroPageX⟩,
   ⟨0xAC, .Y, .absolute, .op2 .ldyAbsolute⟩,
   ⟨0xBC, .Y, .absoluteIndexed .X, .op2 .ldyAbsoluteX⟩]

/-- `OPCODE_TABLE(op)`, a pure function of the byte; nothing for an unrecognized opcode (40_interpreter.md R73). -/
def opcodeTable (op : Byte) : Option OpcodeRow := opcodeRows.find? (fun r => r.opcode == op)

/-- How many operand bytes follow the opcode: decided by the opcode byte alone, none for an unrecognized opcode
(R50, R53, R59). -/
def operandCount (op : Byte) : Nat :=
  match opcodeTable op with
  | some r => r.form.operandBytes
  | none => 0

/-- Why the decoder refuses a list of bytes; no byte VALUE is refused (R57, R58). -/
inductive DecodeError where
  /-- The list is empty. -/
  | noOpcode
  /-- The list ends before the operand bytes of this load opcode do. -/
  | truncated (op : Byte)
  deriving DecidableEq, Repr

/-- Reads the operand of a load and makes the instruction; answers the rest of the list too. -/
def decodeForm (op : Byte) : Form → List Byte → Except DecodeError (Instr × List Byte)
  | .op1 make, o :: rest => .ok (make o, rest)
  | .op2 make, b1 :: b2 :: rest => .ok (make (operandAddr b1 b2), rest)
  | _, _ => .error (.truncated op)

/-- The decoder of R59: the instruction at the head of the list, and the rest of the list. -/
def decode : List Byte → Except DecodeError (Instr × List Byte)
  | [] => .error .noOpcode
  | op :: rest =>
    match opcodeTable op with
    | some r => decodeForm op r.form rest
    | none => .ok (.unrecognized op, rest)

/-- The bytes of an instruction in stream order, from the formats of R51 to R53 and the opcodes of R56. -/
def encode : Instr → List Byte
  | .ldaImmediate o => [0xA9, o]
  | .ldaZeroPage o => [0xA5, o]
  | .ldaZeroPageX o => [0xB5, o]
  | .ldaAbsolute ea => [0xAD, operandLow ea, operandHigh ea]
  | .ldaAbsoluteX base => [0xBD, operandLow base, operandHigh base]
  | .ldaAbsoluteY base => [0xB9, operandLow base, operandHigh base]
  | .ldaIndexedIndirect o => [0xA1, o]
  | .ldaIndirectIndexed o => [0xB1, o]
  | .ldxImmediate o => [0xA2, o]
  | .ldxZeroPage o => [0xA6, o]
  | .ldxZeroPageY o => [0xB6, o]
  | .ldxAbsolute ea => [0xAE, operandLow ea, operandHigh ea]
  | .ldxAbsoluteY base => [0xBE, operandLow base, operandHigh base]
  | .ldyImmediate o => [0xA0, o]
  | .ldyZeroPage o => [0xA4, o]
  | .ldyZeroPageX o => [0xB4, o]
  | .ldyAbsolute ea => [0xAC, operandLow ea, operandHigh ea]
  | .ldyAbsoluteX base => [0xBC, operandLow base, operandHigh base]
  | .unrecognized op => [op]

/-- The three bytes (the longest instruction) of an instruction whose bits are the low `nbits` bits of `w`: bit 0 is
the least significant bit of the opcode byte, every bit from `nbits` up is 0. -/
def tableWordBytes (nbits w : Nat) : List Byte :=
  let v := w % 2 ^ nbits
  [BitVec.ofNat 8 v, BitVec.ofNat 8 (v / 256), BitVec.ofNat 8 (v / 65536)]

/-- The instruction the decoder reads from a word of the opcode table. -/
def decodeTableWord (nbits w : Nat) : Option Instr :=
  match decode (tableWordBytes nbits w) with
  | .ok (i, _) => some i
  | .error _ => none

end Sys2Proof
end

