-- ==== Sys2Proof/Config.lean ====
section
/-! DEFINITION. The named parameters of spec 00_scope.md R6 that are values. The other parameters of R6 are fixed by
the spec to one reading and stand where they are used: OPCODE_TABLE and ABS_ORDER in Decode, INDX_TERM1 in
Machine/Operands, the width of `cyc` in Machine/State. The model needs no free value: no instruction leaves an
undefined or unstated result. -/

namespace Sys2Proof

/-- `START`, the reset value of the program counter and of the write cursor (R6, 10_state.md R12, R21).
DESIGN CHOICE of the spec (D7: the source gives 0x0200 as an example), unsafe: log entry 2.
`Machine.State.resetWith` takes any other value. -/
def Config.start : Addr := 0x0200

/-- The reset value of `ir` (10_state.md R16). DESIGN CHOICE of the spec (D8: the source states none), unsafe:
log entry 3. -/
def Config.irReset : Byte := 0x00

/-- What a byte of memory reads as while the memory list has no entry for it. `MEM_INIT` is OPEN (10_state.md R18,
D9); `Machine.State.resetWith` takes any image, and `Machine.State.reset` the image that lists nothing.
DESIGN CHOICE, unsafe: log entry 1. -/
def Config.memFill : Byte := 0x00

end Sys2Proof
end

