-- ==== Sys2Proof/Machine/State.lean ====
section
/-! DEFINITION. The architectural state (10_state.md section 1), the reasons a step can stop, and the state after
reset (R21, 70_reset_and_hazards.md R150, R151). -/

namespace Sys2Proof.Machine

/-- Memory (10_state.md R18, 20_memory.md R30): the listed bytes, each at an address below 65536, over
`Config.memFill` for every byte not listed. `Memory.wf` (Machine/Ops) is the canonical form: addresses strictly
rising, no entry equal to `Config.memFill`. -/
abbrev Memory := List Host.Cell

/-- Everything the spec gives the machine (10_state.md section 1). There is no phase variable (R19), no mode bit, no
stack pointer and no exception state (R20). -/
structure State where
  /-- General register A (R10). -/
  A : Byte
  /-- General register X (R10). -/
  X : Byte
  /-- General register Y (R10). -/
  Y : Byte
  /-- The program counter (R12, R13). -/
  pc : Addr
  /-- The flag register, whole (R14, R15). -/
  p : Byte
  /-- The pending opcode (R16). -/
  ir : Byte
  /-- The cycle counter, an unbounded natural (R17; D10, log entry 11). -/
  cyc : Nat
  /-- The byte store, external to the core (R18). -/
  mem : Memory
  /-- The loader's write cursor, external to the core (20_memory.md R33). -/
  cursor : Addr
  deriving DecidableEq, Repr

/-- Reasons to stop with a fault: none. "The complete list of exception causes is empty" (60_exceptions.md R130), and
no access, fetch or instruction can fail (R130, 20_memory.md R31, R34). -/
inductive Fault where
  deriving DecidableEq, Repr

/-- Reasons to refuse a step. -/
inductive Refusal where
  /-- An instruction without a meaning; raised by no arm of `exec`, since every instruction has its meaning. Safe. -/
  | notModelled (mnemonic : String)
  /-- Raised by `execute` if the decoder were given fewer bytes than the opcode's length. `execute` gives it exactly
  that many (R50), so no state reaches it (`Sys2Proof.Laws.decode_instructionBytes`). Safe: log entry 13. -/
  | truncatedStream
  deriving DecidableEq, Repr

/-- The reset state for given parameters `START` and `MEM_INIT` (00_scope.md R6; 10_state.md R21,
70_reset_and_hazards.md R150, R151). Nothing is read from memory: there is no reset vector. -/
def State.resetWith (start : Addr) (memInit : Memory) : State where
  A := 0x00
  X := 0x00
  Y := 0x00
  pc := start
  p := 0x00
  ir := Config.irReset
  cyc := 0
  mem := memInit
  cursor := start

/-- The machine right after reset, with `START = 0x0200` (D7, log entry 2) and the memory image that lists nothing
(D9, log entry 1). -/
def State.reset : State := State.resetWith Config.start []

end Sys2Proof.Machine
end

