-- ==== Sys2Proof/Machine/Ops.lean ====
section
/-! DEFINITION. The named operations over memory and registers: the byte store (20_memory.md R31 to R33), the general
registers (10_state.md R10, R11), the program counter, `fetch` (40_interpreter.md R70) and `NextByte()`
(41_addressing_modes.md R85). There is no operation that takes an exception and none that returns from one: the core
has no exception, interrupt or trap (60_exceptions.md R130 to R135). -/

namespace Sys2Proof.Machine

/-! ### The byte store -/

/-- The canonical form: addresses strictly rising, all inside the 65536-byte space (20_memory.md R30), no entry equal
to what an unlisted address reads as. Equal memories are then equal lists. -/
abbrev Memory.wf (m : Memory) : Prop :=
  m.Pairwise (fun c d => c.1 < d.1) ∧ ∀ c ∈ m, c.1 < 65536 ∧ c.2 ≠ Config.memFill

/-- The byte at an address; pure, cannot fail (R31). -/
def Memory.read : Memory → Nat → Byte
  | [], _ => Config.memFill
  | (k, v) :: m, a => if k = a then v else Memory.read m a

/-- The memory without an entry for `a`. -/
def Memory.erase (m : Memory) (a : Nat) : Memory := m.filter (fun c => c.1 != a)

/-- Puts an entry before the first entry of a higher address. -/
def Memory.insert : Memory → Nat → Byte → Memory
  | [], a, v => [(a, v)]
  | (k, w) :: m, a, v => if a < k then (a, v) :: (k, w) :: m else (k, w) :: Memory.insert m a v

/-- Stores a byte, keeping the canonical form (R32). -/
def Memory.write (m : Memory) (a : Nat) (v : Byte) : Memory :=
  if v = Config.memFill then Memory.erase m a else Memory.insert (Memory.erase m a) a v

/-- `MemRead(addr, 1)` (R31). -/
def State.readByte (s : State) (a : Addr) : Byte := Memory.read s.mem a.toNat

/-- `MemWrite(addr, 1, v)`; only the host calls it. It does not move the write cursor (R32). -/
def State.writeByte (a : Addr) (v : Byte) (s : State) : State := { s with mem := Memory.write s.mem a.toNat v }

/-- `append(v)`: stores at the write cursor and advances it by one, modulo 65536 (R33; the wrap by D17, log entry
15). Only the host calls it. -/
def State.append (v : Byte) (s : State) : State :=
  { s with mem := Memory.write s.mem s.cursor.toNat v, cursor := s.cursor + 1 }

/-! ### Registers -/

/-- Reads a general register (10_state.md R10). -/
def State.reg (s : State) : Reg → Byte
  | .A => s.A
  | .X => s.X
  | .Y => s.Y

/-- Writes a general register and nothing else (R10: the three are distinct). -/
def State.setReg (r : Reg) (v : Byte) (s : State) : State :=
  match r with
  | .A => { s with A := v }
  | .X => { s with X := v }
  | .Y => { s with Y := v }

/-- Reads an index register (R11 (b)). -/
def State.index (s : State) : IndexReg → Byte
  | .X => s.X
  | .Y => s.Y

/-- Advances the program counter by `n` operand bytes, modulo 65536 (R13 (c)). -/
def State.advancePc (n : Nat) (s : State) : State := { s with pc := s.pc + BitVec.ofNat 16 n }

/-- Adds to the cycle counter; step 5 of the load routine adds, it does not assign (40_interpreter.md R78). -/
def State.addCycles (n : Nat) (s : State) : State := { s with cyc := s.cyc + n }

/-! ### The instruction stream -/

/-- `NextByte()`: the byte at `pc`, and the state with `pc` advanced by one. It does not write `ir` and does not
clear `cyc` (41_addressing_modes.md R85; D11, log entry 12). -/
def State.nextByte (s : State) : Byte × State := (s.readByte s.pc, { s with pc := s.pc + 1 })

/-- `n` operand bytes consumed by `NextByte()` one after the other, in stream order. -/
def State.operandStream : Nat → State → List Byte × State
  | 0, s => ([], s)
  | n + 1, s =>
    let b := s.nextByte
    let r := State.operandStream n b.2
    (b.1 :: r.1, r.2)

/-- `fetch()`: reads the opcode at `pc`, advances `pc` by one, clears `cyc`, records the opcode in `ir`, and returns
it. It does not touch `A`, `X`, `Y` or `p` (40_interpreter.md R70). -/
def State.fetch (s : State) : Byte × State :=
  let b := s.readByte s.pc
  (b, { s with pc := s.pc + 1, cyc := 0, ir := b })

end Sys2Proof.Machine
end

