-- ==== Sys2Proof/Machine/Flags.lean ====
section
/-! DEFINITION. The flag register: bit positions (10_state.md R14), the clear at the start of `execute`
(40_interpreter.md R72), the flag function `DeriveFlags` (R76) and the host's predicates (10_state.md R22). -/

namespace Sys2Proof.Machine

/-- The seven named flags (R14). -/
inductive Flag where
  | N | V | B | D | I | Z | C
  deriving DecidableEq, Repr

/-- Bit position of a flag in `p` (R14; D3, the family's layout: log entry 5). Bit 5 has no name. -/
def Flag.bit : Flag → Nat
  | .N => 7
  | .V => 6
  | .B => 4
  | .D => 3
  | .I => 2
  | .Z => 1
  | .C => 0

/-- `N_MASK` (R76). -/
def nMask : Byte := 0x80

/-- `Z_MASK` (R76). -/
def zMask : Byte := 0x02

/-- `DeriveFlags(v)`: N from bit 7 of the byte, Z when it is zero, no other bit (R76). -/
def deriveFlags (v : Byte) : Byte :=
  (if v.getLsbD 7 then nMask else 0x00) ||| (if v = 0x00 then zMask else 0x00)

/-- A named flag of the flag register. -/
def State.flag (s : State) (f : Flag) : Bool := s.p.getLsbD f.bit

/-- `p <- 0x00`, the first action of every `execute` (R72). -/
def State.clearFlags (s : State) : State := { s with p := 0x00 }

/-- `p <- p | f`, step 4 of the load routine (R76, R77). -/
def State.orFlags (f : Byte) (s : State) : State := { s with p := s.p ||| f }

/-- `isNegativeSet()` (10_state.md R22). -/
def State.isNegativeSet (s : State) : Bool := s.flag .N

/-- `isZeroSet()` (10_state.md R22). -/
def State.isZeroSet (s : State) : Bool := s.flag .Z

end Sys2Proof.Machine
end

