-- ==== Sys2Proof/Machine/Operands.lean ====
section
/-! DEFINITION. The addressing-mode resolver (41_addressing_modes.md): its primitives (R86, R87), the operand length
and base cost of each mode (R88), and one function per mode (R89 to R95), each answering the byte to load and the
extra cycles. The operand bytes have been consumed by the time a mode is resolved; the index register is read in the
state `execute` was called in (R96). -/

namespace Sys2Proof.Machine

/-- `zext_16(b)`: a byte as an address in page 0 (00_scope.md R8). -/
def zext16 (b : Byte) : Addr := b.setWidth 16

/-- `hi:lo` for the pointer of Indirect Indexed (Y), low byte first (20_memory.md R36 (b); D6, log entry 8). -/
def pointerAddr (lo hi : Byte) : Addr := hi ++ lo

/-- `ZpAdd(a, b)`: 8-bit sum, the carry dropped (R86). -/
def zpAdd (a b : Byte) : Byte := a + b

/-- `PageCross(base, i)`: 1 when adding the byte changes the high byte of the address, else 0 (R87). -/
def pageCross (base : Addr) (i : Byte) : Nat :=
  if (base + zext16 i) &&& 0xFF00 ≠ base &&& 0xFF00 then 1 else 0

/-- How many operand bytes the mode consumes (table at the head of 41_addressing_modes.md). -/
def operandBytes : Mode → Nat
  | .immediate => 1
  | .zeroPage => 1
  | .zeroPageIndexed _ => 1
  | .absolute => 2
  | .absoluteIndexed _ => 2
  | .indexedIndirect => 1
  | .indirectIndexed => 1

/-- `Base(mode)` (R88). It depends on the mode only. -/
def baseCycles : Mode → Nat
  | .immediate => 2
  | .zeroPage => 3
  | .zeroPageIndexed _ => 4
  | .absolute => 4
  | .absoluteIndexed _ => 4
  | .indexedIndirect => 6
  | .indirectIndexed => 5

/-- Immediate: the operand byte is the value (R89). -/
def resolveImmediate (o : Byte) : Byte × Nat := (o, 0)

/-- Zero Page (R90). -/
def resolveZeroPage (o : Byte) (s : State) : Byte × Nat := (s.readByte (zext16 o), 0)

/-- Zero Page,X and Zero Page,Y: the sum wraps in page 0 and costs nothing extra (R91). -/
def resolveZeroPageIndexed (idx : IndexReg) (o : Byte) (s : State) : Byte × Nat :=
  (s.readByte (zext16 (zpAdd o (s.index idx))), 0)

/-- Absolute (R92). -/
def resolveAbsolute (ea : Addr) (s : State) : Byte × Nat := (s.readByte ea, 0)

/-- Absolute,X and Absolute,Y: 16-bit sum, one extra cycle on a page crossing (R93). -/
def resolveAbsoluteIndexed (idx : IndexReg) (base : Addr) (s : State) : Byte × Nat :=
  (s.readByte (base + zext16 (s.index idx)), pageCross base (s.index idx))

/-- Indexed Indirect (X): the 8-bit sum of the byte stored at `o` and the byte stored at `X` is the zero-page address
read. Not the 6502's mode of that name (R94; parameter INDX_TERM1 by D5: DESIGN CHOICE of the spec, log entry 7). -/
def resolveIndexedIndirect (o : Byte) (s : State) : Byte × Nat :=
  let t1 := s.readByte (zext16 o)
  let t2 := s.readByte (zext16 s.X)
  (s.readByte (zext16 (zpAdd t1 t2)), 0)

/-- Indirect Indexed (Y): a two-byte pointer in page 0, its second byte at `o + 1` modulo 256; `Y` is added to it,
one extra cycle on a page crossing (R95; the pointer by D6: DESIGN CHOICE of the spec, log entry 8). -/
def resolveIndirectIndexed (o : Byte) (s : State) : Byte × Nat :=
  let lo := s.readByte (zext16 o)
  let hi := s.readByte (zext16 (zpAdd o 0x01))
  let base := pointerAddr lo hi
  (s.readByte (base + zext16 s.Y), pageCross base s.Y)

end Sys2Proof.Machine
end

