-- ==== Sys2Proof/Machine/LoadRoutine.lean ====
section
/-! DEFINITION. The load routine every load instruction runs (40_interpreter.md R77, R78). -/

namespace Sys2Proof.Machine

/-- `execute` of a load: clear the flags (R72), then the five steps of R77 with the byte and extra cycles the
resolver gave: consume the operand bytes, store the byte, OR in its flags, add base and extra cycles. -/
def State.load (dst : Reg) (mode : Mode) (resolved : Byte × Nat) (s : State) : State :=
  ((((s.clearFlags).advancePc (operandBytes mode)).setReg dst resolved.1).orFlags
    (deriveFlags resolved.1)).addCycles (baseCycles mode + resolved.2)

end Sys2Proof.Machine
end

