-- ==== Sys2Proof/Machine/Lda.lean ====
section
/-! DEFINITION. LDA, load into register A (42_lda.md): one meaning per addressing mode. The state given is the
one after `fetch`, so `pc` is at the first operand byte. -/

namespace Sys2Proof.Machine

/-- LDA Immediate, opcode A9 (R100). -/
def execLdaImmediate (o : Byte) (s : State) : Host.Outcome State Fault Refusal :=
  .next (s.load .A .immediate (resolveImmediate o))

/-- LDA Zero Page, opcode A5 (R101). -/
def execLdaZeroPage (o : Byte) (s : State) : Host.Outcome State Fault Refusal :=
  .next (s.load .A .zeroPage (resolveZeroPage o s))

/-- LDA Zero Page,X, opcode B5 (R102). -/
def execLdaZeroPageX (o : Byte) (s : State) : Host.Outcome State Fault Refusal :=
  .next (s.load .A (.zeroPageIndexed .X) (resolveZeroPageIndexed .X o s))

/-- LDA Absolute, opcode AD (R103). -/
def execLdaAbsolute (ea : Addr) (s : State) : Host.Outcome State Fault Refusal :=
  .next (s.load .A .absolute (resolveAbsolute ea s))

/-- LDA Absolute,X, opcode BD (R104). -/
def execLdaAbsoluteX (base : Addr) (s : State) : Host.Outcome State Fault Refusal :=
  .next (s.load .A (.absoluteIndexed .X) (resolveAbsoluteIndexed .X base s))

/-- LDA Absolute,Y, opcode B9 (R105). -/
def execLdaAbsoluteY (base : Addr) (s : State) : Host.Outcome State Fault Refusal :=
  .next (s.load .A (.absoluteIndexed .Y) (resolveAbsoluteIndexed .Y base s))

/-- LDA Indexed Indirect (X), opcode A1 (R106). -/
def execLdaIndexedIndirect (o : Byte) (s : State) : Host.Outcome State Fault Refusal :=
  .next (s.load .A .indexedIndirect (resolveIndexedIndirect o s))

/-- LDA Indirect Indexed (Y), opcode B1 (R107). -/
def execLdaIndirectIndexed (o : Byte) (s : State) : Host.Outcome State Fault Refusal :=
  .next (s.load .A .indirectIndexed (resolveIndirectIndexed o s))

end Sys2Proof.Machine
end

