-- ==== Sys2Proof/Machine/Ldx.lean ====
section
/-! DEFINITION. LDX, load into register X (43_ldx.md): one meaning per addressing mode. The state given is the
one after `fetch`, so `pc` is at the first operand byte. -/

namespace Sys2Proof.Machine

/-- LDX Immediate, opcode A2 (R110). -/
def execLdxImmediate (o : Byte) (s : State) : Host.Outcome State Fault Refusal :=
  .next (s.load .X .immediate (resolveImmediate o))

/-- LDX Zero Page, opcode A6 (R111). -/
def execLdxZeroPage (o : Byte) (s : State) : Host.Outcome State Fault Refusal :=
  .next (s.load .X .zeroPage (resolveZeroPage o s))

/-- LDX Zero Page,Y, opcode B6 (R112). -/
def execLdxZeroPageY (o : Byte) (s : State) : Host.Outcome State Fault Refusal :=
  .next (s.load .X (.zeroPageIndexed .Y) (resolveZeroPageIndexed .Y o s))

/-- LDX Absolute, opcode AE (R113). -/
def execLdxAbsolute (ea : Addr) (s : State) : Host.Outcome State Fault Refusal :=
  .next (s.load .X .absolute (resolveAbsolute ea s))

/-- LDX Absolute,Y, opcode BE (R114). -/
def execLdxAbsoluteY (base : Addr) (s : State) : Host.Outcome State Fault Refusal :=
  .next (s.load .X (.absoluteIndexed .Y) (resolveAbsoluteIndexed .Y base s))

end Sys2Proof.Machine
end

