-- ==== Sys2Proof/Machine/Ldy.lean ====
section
/-! DEFINITION. LDY, load into register Y (44_ldy.md): one meaning per addressing mode. The state given is the
one after `fetch`, so `pc` is at the first operand byte. -/

namespace Sys2Proof.Machine

/-- LDY Immediate, opcode A0 (R120). -/
def execLdyImmediate (o : Byte) (s : State) : Host.Outcome State Fault Refusal :=
  .next (s.load .Y .immediate (resolveImmediate o))

/-- LDY Zero Page, opcode A4 (R121). -/
def execLdyZeroPage (o : Byte) (s : State) : Host.Outcome State Fault Refusal :=
  .next (s.load .Y .zeroPage (resolveZeroPage o s))

/-- LDY Zero Page,X, opcode B4 (R122). -/
def execLdyZeroPageX (o : Byte) (s : State) : Host.Outcome State Fault Refusal :=
  .next (s.load .Y (.zeroPageIndexed .X) (resolveZeroPageIndexed .X o s))

/-- LDY Absolute, opcode AC (R123). -/
def execLdyAbsolute (ea : Addr) (s : State) : Host.Outcome State Fault Refusal :=
  .next (s.load .Y .absolute (resolveAbsolute ea s))

/-- LDY Absolute,X, opcode BC (R124). -/
def execLdyAbsoluteX (base : Addr) (s : State) : Host.Outcome State Fault Refusal :=
  .next (s.load .Y (.absoluteIndexed .X) (resolveAbsoluteIndexed .X base s))

end Sys2Proof.Machine
end

