-- ==== Sys2Proof/Machine/Unrecognized.lean ====
section
/-! DEFINITION. The 238 opcode bytes the opcode map does not give to a load (40_interpreter.md R74, 30_encoding.md
R57). -/

namespace Sys2Proof.Machine

/-- An unrecognized opcode: the flags are cleared and nothing else happens; no operand byte is consumed, no cycle is
charged (R72, R74; the flags by conflict C2, log entry 9). -/
def execUnrecognized (s : State) : Host.Outcome State Fault Refusal :=
  .next s.clearFlags

end Sys2Proof.Machine
end

