-- ==== Sys2Proof/Machine/Dispatch.lean ====
section
/-! DEFINITION. What `execute` does with a decoded instruction: one arm per constructor of `Instr`
(40_interpreter.md R71, R73, R74). -/

namespace Sys2Proof.Machine

def exec (i : Instr) (s : State) : Host.Outcome State Fault Refusal :=
  match i with
  | .ldaImmediate o => Sys2Proof.Machine.execLdaImmediate o s
  | .ldaZeroPage o => Sys2Proof.Machine.execLdaZeroPage o s
  | .ldaZeroPageX o => Sys2Proof.Machine.execLdaZeroPageX o s
  | .ldaAbsolute ea => Sys2Proof.Machine.execLdaAbsolute ea s
  | .ldaAbsoluteX base => Sys2Proof.Machine.execLdaAbsoluteX base s
  | .ldaAbsoluteY base => Sys2Proof.Machine.execLdaAbsoluteY base s
  | .ldaIndexedIndirect o => Sys2Proof.Machine.execLdaIndexedIndirect o s
  | .ldaIndirectIndexed o => Sys2Proof.Machine.execLdaIndirectIndexed o s
  | .ldxImmediate o => Sys2Proof.Machine.execLdxImmediate o s
  | .ldxZeroPage o => Sys2Proof.Machine.execLdxZeroPage o s
  | .ldxZeroPageY o => Sys2Proof.Machine.execLdxZeroPageY o s
  | .ldxAbsolute ea => Sys2Proof.Machine.execLdxAbsolute ea s
  | .ldxAbsoluteY base => Sys2Proof.Machine.execLdxAbsoluteY base s
  | .ldyImmediate o => Sys2Proof.Machine.execLdyImmediate o s
  | .ldyZeroPage o => Sys2Proof.Machine.execLdyZeroPage o s
  | .ldyZeroPageX o => Sys2Proof.Machine.execLdyZeroPageX o s
  | .ldyAbsolute ea => Sys2Proof.Machine.execLdyAbsolute ea s
  | .ldyAbsoluteX base => Sys2Proof.Machine.execLdyAbsoluteX base s
  | .unrecognized _ => Sys2Proof.Machine.execUnrecognized s

end Sys2Proof.Machine
end

