-- ==== Sys2Proof/Machine/Interpreter.lean ====
section
/-! DEFINITION. The operation `execute` (40_interpreter.md R71) and the tag it returns (R75). -/

namespace Sys2Proof.Machine

/-- The bytes of the pending instruction: the latched opcode, then as many bytes at the current `pc` as that opcode
has operands. The opcode comes from `ir`, not from memory (R73, R79, 20_memory.md R43); no byte beyond the operands
is read (41_addressing_modes.md R97). -/
def State.instructionBytes (s : State) : List Byte := s.ir :: (s.operandStream (operandCount s.ir)).1

/-- `execute()`: runs the instruction the latched opcode selects, with the operands at the current `pc`. It does not
check that a `fetch` came before; a second `execute` runs the same opcode again (R71, R79; log entry 16). -/
def execute (s : State) : Host.Outcome State Fault Refusal :=
  match decode s.instructionBytes with
  | .ok (i, _) => exec i s
  | .error _ => .refused .truncatedStream

/-- The tag `execute` returns (R75; D4, log entry 10). It is stored in no state. -/
inductive ExecTag where
  | executed
  | unimplemented
  deriving DecidableEq, Repr

/-- The tag returned by `execute` called in this state: `Executed` when the lookup yields a row (R75). -/
def executeTag (s : State) : ExecTag :=
  match opcodeTable s.ir with
  | some _ => .executed
  | none => .unimplemented

end Sys2Proof.Machine
end

