-- ==== Sys2Proof/Machine/HostPort.lean ====
section
/-! DEFINITION. The host's operations on the machine that change its state (70_reset_and_hazards.md R156); reset is
`State.resetWith`, the observations are `State.A`, `State.X`, `State.Y`, `State.cyc`, `State.isNegativeSet`,
`State.isZeroSet` (10_state.md R22), `read(addr)` is `State.readByte`. The host performs one at a time, never during
another (00_scope.md R9). -/

namespace Sys2Proof.Machine

/-- One host operation (R156). There is none that writes `pc`, `p`, `ir` or `cyc` by itself (D12, log entry 14). -/
inductive HostOp where
  /-- `append(v)`. -/
  | append (v : Byte)
  /-- `write(addr, v)`. -/
  | write (a : Addr) (v : Byte)
  /-- Set `A`, `X` or `Y`; nothing else changes (10_state.md R11 (c)). -/
  | setReg (r : Reg) (v : Byte)
  /-- `fetch()`. -/
  | fetch
  /-- `execute()`. -/
  | execute
  deriving DecidableEq, Repr

/-- The effect of one host operation. -/
def hostOp (op : HostOp) (s : State) : Host.Outcome State Fault Refusal :=
  match op with
  | .append v => .next (s.append v)
  | .write a v => .next (s.writeByte a v)
  | .setReg r v => .next (s.setReg r v)
  | .fetch => .next s.fetch.2
  | .execute => execute s

/-- A sequence of host operations, in any order: the machine enforces none (R153, R157). -/
def hostRun : List HostOp → State → Host.Outcome State Fault Refusal
  | [], s => .next s
  | op :: ops, s =>
    match hostOp op s with
    | .next t => hostRun ops t
    | .fault f => .fault f
    | .refused r => .refused r

end Sys2Proof.Machine
end

