-- ==== Sys2Proof/Machine/Step.lean ====
section
/-! DEFINITION. One step of the machine: an instruction step, `fetch()` then `execute()` (40_interpreter.md R80;
log entry 16). The host's other orders of the two operations are in Machine/HostPort. -/

namespace Sys2Proof.Machine

/-- One instruction step (R80). -/
def step (s : State) : Host.Outcome State Fault Refusal := execute s.fetch.2

/-- The state with the three bytes of a word of the opcode table stored at `pc` and the addresses after it, modulo
65536: where the next step fetches (log entry 17). -/
def State.withFetchWord (s : State) (nbits w : Nat) : State :=
  match tableWordBytes nbits w with
  | [b0, b1, b2] => ((s.writeByte s.pc b0).writeByte (s.pc + 1) b1).writeByte (s.pc + 2) b2
  | _ => s

end Sys2Proof.Machine
end

