-- ==== Sys2Proof/Safety.lean ====
section
/-! DEFINITION. What counts as a safe state and a safe run, and what a load or an unrecognized opcode does to the whole
state, in the terms the statements use. -/

namespace Sys2Proof.Machine

/-- The flag register as some single instruction left it, or as reset left it: no flag, Z alone, or N alone
(10_state.md R15 (c), (d), 40_interpreter.md R76; positions by D3, log entry 5). -/
abbrev FlagsLegal (s : State) : Prop := s.p = 0x00 ∨ s.p = 0x02 ∨ s.p = 0x80

/-- What holds in every state the host can bring the machine to: memory in canonical form, flags legal. -/
abbrev Inv (s : State) : Prop := Memory.wf s.mem ∧ FlagsLegal s

/-- What holds between instruction steps: `Inv`, and the counter holds the cost of one instruction at most
(10_state.md R17). -/
abbrev StepInv (s : State) : Prop := Inv s ∧ s.cyc ≤ 6

/-- The run of `k` instruction steps reaches a state: no step faults or refuses. -/
def SafeRun (k : Nat) (s : State) : Prop := ∃ t, Host.Core.run Sys2Proof.core k s = .next t

/-- The state `t` is the whole effect of a load on `s`: byte `v` into `dst`, `n` operand bytes consumed, `cost`
cycles added, N and Z from `v`, every other flag bit 0, everything else as before (40_interpreter.md R72, R76, R77). -/
def LoadEffect (s t : State) (dst : Reg) (v : Byte) (n cost : Nat) : Prop :=
  t.reg dst = v ∧ (∀ q, q ≠ dst → t.reg q = s.reg q) ∧
  t.pc.toNat = (s.pc.toNat + n) % 65536 ∧
  (∀ k, t.p.getLsbD k = ((decide (k = 7) && v.getLsbD 7) || (decide (k = 1) && decide (v = 0x00)))) ∧
  t.cyc = s.cyc + cost ∧ t.ir = s.ir ∧ t.mem = s.mem ∧ t.cursor = s.cursor

/-- In `s`, instruction `i`, whose bytes are `bytes`, completes as a load of `v` into `dst` at `cost` cycles. -/
def LoadsTo (i : Instr) (bytes : List Byte) (s : State) (dst : Reg) (v : Byte) (cost : Nat) : Prop :=
  encode i = bytes ∧ ∃ t, exec i s = .next t ∧ LoadEffect s t dst v (bytes.length - 1) cost

/-- The register an instruction writes: `A` for LDA, `X` for LDX, `Y` for LDY, none for an unrecognized opcode
(10_state.md R11 (a), (d)). -/
def destination : Instr → Option Reg
  | .ldaImmediate _ => some .A
  | .ldaZeroPage _ => some .A
  | .ldaZeroPageX _ => some .A
  | .ldaAbsolute _ => some .A
  | .ldaAbsoluteX _ => some .A
  | .ldaAbsoluteY _ => some .A
  | .ldaIndexedIndirect _ => some .A
  | .ldaIndirectIndexed _ => some .A
  | .ldxImmediate _ => some .X
  | .ldxZeroPage _ => some .X
  | .ldxZeroPageY _ => some .X
  | .ldxAbsolute _ => some .X
  | .ldxAbsoluteY _ => some .X
  | .ldyImmediate _ => some .Y
  | .ldyZeroPage _ => some .Y
  | .ldyZeroPageX _ => some .Y
  | .ldyAbsolute _ => some .Y
  | .ldyAbsoluteX _ => some .Y
  | .unrecognized _ => none

/-- The instruction's mode reaches page 0 only, beside its operand bytes: Immediate, the zero-page modes and Indexed
Indirect (X) (41_addressing_modes.md R89, R90, R91, R94). -/
def readsPageZeroOnly : Instr → Bool
  | .ldaImmediate _ => true
  | .ldaZeroPage _ => true
  | .ldaZeroPageX _ => true
  | .ldaAbsolute _ => false
  | .ldaAbsoluteX _ => false
  | .ldaAbsoluteY _ => false
  | .ldaIndexedIndirect _ => true
  | .ldaIndirectIndexed _ => false
  | .ldxImmediate _ => true
  | .ldxZeroPage _ => true
  | .ldxZeroPageY _ => true
  | .ldxAbsolute _ => false
  | .ldxAbsoluteY _ => false
  | .ldyImmediate _ => true
  | .ldyZeroPage _ => true
  | .ldyZeroPageX _ => true
  | .ldyAbsolute _ => false
  | .ldyAbsoluteX _ => false
  | .unrecognized _ => true

/-- The `k`-th byte of the instruction stream from `pc` on, modulo 65536 (30_encoding.md R60). -/
def streamByte (s : State) (k : Nat) : Byte := Memory.read s.mem ((s.pc.toNat + k) % 65536)

/-- The host operation stores to memory: `append` or `write` (20_memory.md R32, R33, R39). -/
def HostOp.storesToMemory : HostOp → Bool
  | .append _ => true
  | .write _ _ => true
  | .setReg _ _ => false
  | .fetch => false
  | .execute => false

end Sys2Proof.Machine
end

