-- ==== Sys2Proof/Certificates/Slice0/Obligations.lean ====
section
/-! DEFINITION. The statements about the model, one `def Obligations.<Name> : Prop` each. Where a clause rests on a
decision of the spec (92_eei_decisions.md D<n>), the docstring names it and the log entry. -/

open Sys2Proof Sys2Proof.Machine

/-! ### Encoding -/

/-- Every bit of an encoding is kept: decoding the bytes of a well-formed instruction, whatever follows them, gives
it back (R50 to R56, R59; opcodes by D2, byte order by D1: log entries 4, 6). -/
def Obligations.DecodeOfEncodedInstruction : Prop :=
  ∀ (i : Instr) (rest : List Byte), i.wf = true → decode (encode i ++ rest) = .ok (i, rest)

/-- A stream has one reading: what the decoder answers is well-formed and re-encodes to the very bytes read (R59). -/
def Obligations.DecodedInstructionReencodes : Prop :=
  ∀ (bs : List Byte) (i : Instr) (rest : List Byte),
    decode bs = .ok (i, rest) → i.wf = true ∧ encode i ++ rest = bs

/-- No byte value is refused; the decoder refuses exactly the streams that end inside an instruction (R51, R52, R57,
R58; the opcodes by D2, log entry 4). -/
def Obligations.DecodeRefusesOnlyTruncatedStreams : Prop :=
  ∀ (bs : List Byte) (e : DecodeError), decode bs = .error e ↔
    (bs = [] ∧ e = .noOpcode) ∨
    ∃ op tail, bs = op :: tail ∧ e = .truncated op ∧
      ((op ∈ ([0xA9, 0xA5, 0xB5, 0xA1, 0xB1, 0xA2, 0xA6, 0xB6, 0xA0, 0xA4, 0xB4] : List Byte) ∧ tail.length < 1) ∨
       (op ∈ ([0xAD, 0xBD, 0xB9, 0xAE, 0xBE, 0xAC, 0xBC] : List Byte) ∧ tail.length < 2))

/-- A few words written out from the spec's encodings, one or more per family (R56, R55, R57; D1, D2). -/
def Obligations.SampleWordsDecode : Prop :=
  decode [0xB5, 0xF8] = .ok (.ldaZeroPageX 0xF8, []) ∧
  decode [0xBD, 0xFF, 0x3F] = .ok (.ldaAbsoluteX 0x3FFF, []) ∧
  decode [0xB1, 0x9A, 0xEA] = .ok (.ldaIndirectIndexed 0x9A, [0xEA]) ∧
  decode [0xAE, 0x00, 0x80] = .ok (.ldxAbsolute 0x8000, []) ∧
  decode [0xA0, 0xF1] = .ok (.ldyImmediate 0xF1, []) ∧
  decode [0x85, 0xA9, 0x10] = .ok (.unrecognized 0x85, [0xA9, 0x10])

/-- The length of an instruction is decided by its opcode byte alone, and is at most three bytes (R50). -/
def Obligations.OpcodeAloneDecidesLength : Prop :=
  ∀ (i j : Instr) (op : Byte) (bi bj : List Byte), i.wf = true → j.wf = true →
    encode i = op :: bi → encode j = op :: bj → bi.length = bj.length ∧ bi.length ≤ 2

/-- A byte is unrecognized exactly when it is none of the 18 load opcodes; 238 bytes are (R57, R59; D2, log entry 4). -/
def Obligations.UnrecognizedIffNoLoadOpcode : Prop :=
  (∀ (op : Byte) (tail : List Byte), decode (op :: tail) = .ok (.unrecognized op, tail) ↔
    op ∉ ([0xA9, 0xA5, 0xB5, 0xAD, 0xBD, 0xB9, 0xA1, 0xB1, 0xA2, 0xA6, 0xB6, 0xAE, 0xBE,
           0xA0, 0xA4, 0xB4, 0xAC, 0xBC] : List Byte)) ∧
  ((List.range 256).filter fun n => (opcodeTable (BitVec.ofNat 8 n)).isNone).length = 238

/-! ### The pure functions -/

/-- The flag function has three results: Z for a zero byte, N for a byte with bit 7 set, nothing otherwise (R76;
bit positions by D3, log entry 5). -/
def Obligations.FlagFunctionHasThreeResults : Prop :=
  ∀ v : Byte, deriveFlags v = if v.toNat = 0 then 0x02 else if 128 ≤ v.toNat then 0x80 else 0x00

/-- Zero-page addition is the sum modulo 256, stays in page 0 as an address, and never adds a cycle (R86). -/
def Obligations.ZeroPageSumStaysInPageZero : Prop :=
  (∀ a b : Byte, (zpAdd a b).toNat = (a.toNat + b.toNat) % 256 ∧
    (zext16 (zpAdd a b)).toNat = (a.toNat + b.toNat) % 256 ∧ (zext16 (zpAdd a b)).toNat ≤ 0x00FF) ∧
  ∀ (idx : IndexReg) (o : Byte) (s : State),
    (resolveZeroPageIndexed idx o s).2 = 0 ∧ (resolveIndexedIndirect o s).2 = 0

/-- The page-crossing test, in each of the wordings of R87: the masked sum differs, with or without reduction; the
high byte of the reduced sum differs; the low byte and the index together exceed 0xFF; never for index 0. -/
def Obligations.PageCrossMeansHighByteChanges : Prop :=
  ∀ (base : Addr) (i : Byte),
    (pageCross base i = 0 ∨ pageCross base i = 1) ∧
    (pageCross base i = 1 ↔ 0xFF < base.toNat % 256 + i.toNat) ∧
    (pageCross base i = 1 ↔ (base.toNat + i.toNat) % 65536 / 256 ≠ base.toNat / 256) ∧
    (pageCross base i = 1 ↔ (base.toNat + i.toNat) &&& 0xFF00 ≠ base.toNat &&& 0xFF00) ∧
    pageCross base 0x00 = 0

/-! ### fetch, NextByte, execute -/

/-- `fetch` reads the byte at `pc`, advances `pc`, clears `cyc`, latches and returns the byte, and touches nothing
else (R70). -/
def Obligations.FetchLatchesOpcode : Prop :=
  ∀ s : State,
    s.fetch.1 = Memory.read s.mem s.pc.toNat ∧ s.fetch.2.ir = Memory.read s.mem s.pc.toNat ∧
    s.fetch.2.pc.toNat = (s.pc.toNat + 1) % 65536 ∧ s.fetch.2.cyc = 0 ∧
    s.fetch.2.A = s.A ∧ s.fetch.2.X = s.X ∧ s.fetch.2.Y = s.Y ∧ s.fetch.2.p = s.p ∧
    s.fetch.2.mem = s.mem ∧ s.fetch.2.cursor = s.cursor

/-- A second `fetch` discards the first opcode: only `pc` shows it was there, and the flags stay (R82). -/
def Obligations.SecondFetchDiscardsOpcode : Prop :=
  ∀ s : State,
    s.fetch.2.fetch.1 = Memory.read s.mem ((s.pc.toNat + 1) % 65536) ∧
    s.fetch.2.fetch.2.ir = Memory.read s.mem ((s.pc.toNat + 1) % 65536) ∧
    s.fetch.2.fetch.2.pc.toNat = (s.pc.toNat + 2) % 65536 ∧ s.fetch.2.fetch.2.cyc = 0 ∧
    s.fetch.2.fetch.2.p = s.p ∧ s.fetch.2.fetch.2.A = s.A ∧ s.fetch.2.fetch.2.X = s.X ∧
    s.fetch.2.fetch.2.Y = s.Y ∧ s.fetch.2.fetch.2.mem = s.mem ∧ s.fetch.2.fetch.2.cursor = s.cursor

/-- Any number of operand bytes come in ascending address order modulo 65536, and consuming them moves `pc` and
nothing else: not `ir`, not `cyc` (R85, R60; that `ir` and `cyc` stay is D11, log entry 12). -/
def Obligations.OperandBytesComeInStreamOrder : Prop :=
  ∀ (n : Nat) (s : State),
    (s.operandStream n).1 = (List.range n).map (fun k => streamByte s k) ∧
    (s.operandStream n).2.pc.toNat = (s.pc.toNat + n) % 65536 ∧
    (s.operandStream n).2 = { s with pc := (s.operandStream n).2.pc }

/-- What an instruction does depends in no way on the flags before it: they are cleared first, whatever the opcode
(R72, R15 (e)). For an unrecognized opcode the clear is the spec's resolution of conflict C2 (90_conflicts.md), log
entry 9. -/
def Obligations.EarlierFlagsNeverMatter : Prop :=
  (∀ (i : Instr) (s : State) (q : Byte), exec i { s with p := q } = exec i s) ∧
  ∀ (s : State) (q : Byte), execute { s with p := q } = execute s

/-- An unrecognized opcode clears `p` and does nothing else (R74). That the flags are cleared is the spec's resolution
of conflict C2, log entry 9; which bytes are unrecognized is D2, log entry 4. -/
def Obligations.UnrecognizedOpcodeOnlyClearsFlags : Prop :=
  (∀ (op : Byte) (s : State), exec (.unrecognized op) s = .next { s with p := 0x00 }) ∧
  ∀ s : State, isLoadOpcode s.ir = false → execute s = .next { s with p := 0x00 }

/-- The tag of `execute` is `Unimplemented` exactly for an unrecognized opcode and `Executed` exactly for a load opcode
(R75; the tag by D4, log entry 10; which opcodes are loads by D2, log entry 4). -/
def Obligations.TagTellsUnrecognizedOpcodes : Prop :=
  ∀ s : State, (executeTag s = .unimplemented ↔ isLoadOpcode s.ir = false) ∧
    (executeTag s = .executed ↔ isLoadOpcode s.ir = true)

/-- `execute` runs the instruction decoded from the LATCHED opcode and the bytes at the CURRENT `pc`, whether or not
a `fetch` came just before (R71, R79). -/
def Obligations.ExecuteRunsLatchedOpcode : Prop :=
  ∀ (s : State) (i : Instr) (rest : List Byte),
    decode [s.ir, streamByte s 0, streamByte s 1] = .ok (i, rest) → execute s = exec i s

/-- Two `execute` in a row: the same opcode runs again, its operands taken from where the first run stopped, and its
cost is added to that of the first (R79, R78). That operand reads leave `ir` and `cyc` alone is the spec's decision D11,
log entry 12; which opcodes are loads is D2, log entry 4. -/
def Obligations.SecondExecuteRepeatsOpcode : Prop :=
  ∀ s : State, ∃ (i j : Instr) (t u : State) (c d : Nat) (r q : List Byte),
    decode [s.ir, streamByte s 0, streamByte s 1] = .ok (i, r) ∧
    decode [s.ir, streamByte t 0, streamByte t 1] = .ok (j, q) ∧
    execute s = .next t ∧ execute t = exec j t ∧ execute t = .next u ∧ u.ir = s.ir ∧
    t.pc.toNat = (s.pc.toNat + ((encode i).length - 1)) % 65536 ∧
    u.pc.toNat = (t.pc.toNat + ((encode j).length - 1)) % 65536 ∧
    t.cyc = s.cyc + c ∧ u.cyc = s.cyc + c + d ∧ c ≤ 6 ∧ d ≤ 6 ∧ (isLoadOpcode s.ir = true → 2 ≤ c ∧ 2 ≤ d)

/-- Dispatch: a row of the opcode map decides destination, operand length and cost of what `execute` does; an extra
cycle only in the Absolute-indexed and Indirect Indexed modes (R71, R73, R77, R88; the rows by D2, log entry 4; N at
bit 7 and Z at bit 1 by D3, log entry 5). -/
def Obligations.DispatchFollowsOpcodeMap : Prop :=
  ∀ (s : State) (r : OpcodeRow), opcodeTable s.ir = some r →
    ∃ (t : State) (v : Byte) (extra : Nat), execute s = .next t ∧
      LoadEffect s t r.dst v (operandBytes r.mode) (baseCycles r.mode + extra) ∧ extra ≤ 1 ∧
      (extra = 1 → (∃ idx, r.mode = .absoluteIndexed idx) ∨ r.mode = .indirectIndexed)

/-! ### The loads, by addressing mode: encoding, completion, result and frame in one -/

/-- LDA, LDX, LDY Immediate (R89, R100, R110, R120; opcodes A2, A0 by D2, flag bits by D3: log entries 4, 5). -/
def Obligations.ImmediateLoads : Prop :=
  ∀ (o : Byte) (s : State),
    LoadsTo (.ldaImmediate o) [0xA9, o] s .A o 2 ∧
    LoadsTo (.ldxImmediate o) [0xA2, o] s .X o 2 ∧
    LoadsTo (.ldyImmediate o) [0xA0, o] s .Y o 2

/-- LDA, LDX, LDY Zero Page (R90, R101, R111, R121; opcodes by D2, flag bits by D3: log entries 4, 5). -/
def Obligations.ZeroPageLoads : Prop :=
  ∀ (o : Byte) (s : State),
    LoadsTo (.ldaZeroPage o) [0xA5, o] s .A (Memory.read s.mem o.toNat) 3 ∧
    LoadsTo (.ldxZeroPage o) [0xA6, o] s .X (Memory.read s.mem o.toNat) 3 ∧
    LoadsTo (.ldyZeroPage o) [0xA4, o] s .Y (Memory.read s.mem o.toNat) 3

/-- LDA Zero Page,X, LDX Zero Page,Y, LDY Zero Page,X: the address is the sum modulo 256, at no extra cycle (R91,
R102, R112, R122; opcodes B6, B4 by D2, flag bits by D3: log entries 4, 5). -/
def Obligations.ZeroPageIndexedLoads : Prop :=
  ∀ (o : Byte) (s : State),
    LoadsTo (.ldaZeroPageX o) [0xB5, o] s .A (Memory.read s.mem ((o.toNat + s.X.toNat) % 256)) 4 ∧
    LoadsTo (.ldxZeroPageY o) [0xB6, o] s .X (Memory.read s.mem ((o.toNat + s.Y.toNat) % 256)) 4 ∧
    LoadsTo (.ldyZeroPageX o) [0xB4, o] s .Y (Memory.read s.mem ((o.toNat + s.X.toNat) % 256)) 4

/-- LDA, LDX, LDY Absolute: the address is `b2 * 256 + b1` (R92, R55, R103, R113, R123; byte order by D1, opcodes by
D2, flag bits by D3: log entries 6, 4, 5). -/
def Obligations.AbsoluteLoads : Prop :=
  ∀ (b1 b2 : Byte) (s : State),
    let ea := b2.toNat * 256 + b1.toNat
    LoadsTo (.ldaAbsolute (BitVec.ofNat 16 ea)) [0xAD, b1, b2] s .A (Memory.read s.mem ea) 4 ∧
    LoadsTo (.ldxAbsolute (BitVec.ofNat 16 ea)) [0xAE, b1, b2] s .X (Memory.read s.mem ea) 4 ∧
    LoadsTo (.ldyAbsolute (BitVec.ofNat 16 ea)) [0xAC, b1, b2] s .Y (Memory.read s.mem ea) 4

/-- LDA Absolute,X, LDA Absolute,Y, LDX Absolute,Y, LDY Absolute,X: the sum modulo 65536, one extra cycle when the
index carries out of the low byte (R93, R55, R87, R104, R105, R114, R124; byte order by D1, opcodes B9, BE, BC by D2,
flag bits by D3: log entries 6, 4, 5). -/
def Obligations.AbsoluteIndexedLoads : Prop :=
  ∀ (b1 b2 : Byte) (s : State),
    let base := b2.toNat * 256 + b1.toNat
    let at' := fun idx : Byte => Memory.read s.mem ((base + idx.toNat) % 65536)
    let cost := fun idx : Byte => if 0xFF < b1.toNat + idx.toNat then 5 else 4
    LoadsTo (.ldaAbsoluteX (BitVec.ofNat 16 base)) [0xBD, b1, b2] s .A (at' s.X) (cost s.X) ∧
    LoadsTo (.ldaAbsoluteY (BitVec.ofNat 16 base)) [0xB9, b1, b2] s .A (at' s.Y) (cost s.Y) ∧
    LoadsTo (.ldxAbsoluteY (BitVec.ofNat 16 base)) [0xBE, b1, b2] s .X (at' s.Y) (cost s.Y) ∧
    LoadsTo (.ldyAbsoluteX (BitVec.ofNat 16 base)) [0xBC, b1, b2] s .Y (at' s.X) (cost s.X)

/-- LDA Indexed Indirect (X): the sum modulo 256 of the byte stored at the operand and the byte stored at `X` is the
address (R94, R106; the first addend by D5, opcode by D2, flag bits by D3: log entries 7, 4, 5). -/
def Obligations.IndexedIndirectLoad : Prop :=
  ∀ (o : Byte) (s : State),
    let t1 := Memory.read s.mem o.toNat
    let t2 := Memory.read s.mem s.X.toNat
    LoadsTo (.ldaIndexedIndirect o) [0xA1, o] s .A (Memory.read s.mem ((t1.toNat + t2.toNat) % 256)) 6

/-- LDA Indirect Indexed (Y): a two-byte pointer in page 0 plus `Y`, modulo 65536, one extra cycle when `Y` carries
out of the pointer's low byte (R95, R107; the pointer by D6, flag bits by D3: log entries 8, 5). -/
def Obligations.IndirectIndexedLoad : Prop :=
  ∀ (o : Byte) (s : State),
    let lo := Memory.read s.mem o.toNat
    let hi := Memory.read s.mem ((o.toNat + 1) % 256)
    let ea := (hi.toNat * 256 + lo.toNat + s.Y.toNat) % 65536
    LoadsTo (.ldaIndirectIndexed o) [0xB1, o] s .A (Memory.read s.mem ea)
      (if 0xFF < lo.toNat + s.Y.toNat then 6 else 5)

/-! ### Frames and independence -/

/-- What every instruction leaves unchanged: the registers but its destination, `ir`, the cursor, every byte of
memory; an unrecognized opcode leaves `pc` and `cyc` too. No flag but N and Z is set after it (R11, R71, R72, R74,
R39, R15 (c)). N at bit 7 and Z at bit 1 by D3, log entry 5; the destinations by the rows of D2, log entry 4; that an
unrecognized opcode leaves `p` clear is the spec's resolution of conflict C2, log entry 9. -/
def Obligations.InstructionFrame : Prop :=
  ∀ (i : Instr) (s t : State), exec i s = .next t →
    (∀ q : Reg, destination i ≠ some q → t.reg q = s.reg q) ∧
    t.ir = s.ir ∧ t.cursor = s.cursor ∧ (∀ a : Nat, Memory.read t.mem a = Memory.read s.mem a) ∧
    (destination i = none → t.pc = s.pc ∧ t.cyc = s.cyc ∧ t.p = 0x00) ∧
    ∀ k : Nat, k ≠ 7 → k ≠ 1 → t.p.getLsbD k = false

/-- No instruction reads its own destination, and `A` is read by no instruction (R11 (b)). Which index register LDX and
LDY use comes from the rows of R56, which are D2, log entry 4. -/
def Obligations.DestinationIsNeverRead : Prop :=
  (∀ (i : Instr) (s : State) (d : Reg) (v : Byte), destination i = some d → exec i (s.setReg d v) = exec i s) ∧
  ∀ (i : Instr) (s t : State) (v : Byte), destination i ≠ some .A → exec i s = .next t →
    exec i (s.setReg .A v) = .next (t.setReg .A v)

/-- The cost is added to the counter, and depends on it in no way (R78). -/
def Obligations.CostIsAddedToCounter : Prop :=
  ∀ (i : Instr) (s t : State) (n : Nat), exec i s = .next t →
    s.cyc ≤ t.cyc ∧ t.cyc ≤ s.cyc + 6 ∧ exec i (s.addCycles n) = .next (t.addCycles n)

/-- The zero-page modes and Indexed Indirect (X) see page 0 alone: two memories that agree there give the same result
(R89, R90, R91, R94). -/
def Obligations.ZeroPageModesSeePageZeroOnly : Prop :=
  ∀ (i : Instr) (s t : State) (m : Memory), readsPageZeroOnly i = true →
    (∀ a : Nat, a < 256 → Memory.read m a = Memory.read s.mem a) → exec i s = .next t →
    exec i { s with mem := m } = .next { t with mem := m }

/-! ### The instruction step and runs -/

/-- When the bytes at `pc` decode to an instruction, a step is that instruction's meaning in the state after `fetch`:
opcode latched, `pc` at the first operand byte, `cyc` clear (R80, R70, R71). -/
def Obligations.StepRunsDecodedInstruction : Prop :=
  ∀ (s : State) (i : Instr) (rest : List Byte),
    decode [streamByte s 0, streamByte s 1, streamByte s 2] = .ok (i, rest) →
    step s = exec i { s with ir := streamByte s 0, pc := s.pc + 1, cyc := 0 }

/-- Every step completes: the instruction at `pc` is decoded, `pc` moves past its bytes modulo 65536, `ir` holds its
opcode, memory and cursor stay, and an unrecognized opcode costs nothing and leaves `p` clear (R80, R13, R60). That
clear is the spec's resolution of conflict C2, log entry 9; which bytes are unrecognized is D2, log entry 4. -/
def Obligations.StepMovesPastInstruction : Prop :=
  ∀ s : State, ∃ (i : Instr) (rest : List Byte) (t : State),
    decode [streamByte s 0, streamByte s 1, streamByte s 2] = .ok (i, rest) ∧ step s = .next t ∧
    t.pc.toNat = (s.pc.toNat + (encode i).length) % 65536 ∧ t.ir = streamByte s 0 ∧
    t.mem = s.mem ∧ t.cursor = s.cursor ∧
    (isLoadOpcode (streamByte s 0) = false →
      t = { s with ir := streamByte s 0, pc := s.pc + 1, cyc := 0, p := 0x00 })

/-- The cycle cost of one instruction step, per opcode: the whole table of R160 (R88, R78; opcodes by D2, byte order
by D1, pointer by D6: log entries 4, 6, 8). -/
def Obligations.StepCostPerOpcode : Prop :=
  ∀ s : State, ∃ t : State, step s = .next t ∧
    let op := streamByte s 0
    let o := streamByte s 1
    (op ∈ ([0xA9, 0xA2, 0xA0] : List Byte) → t.cyc = 2) ∧
    (op ∈ ([0xA5, 0xA6, 0xA4] : List Byte) → t.cyc = 3) ∧
    (op ∈ ([0xB5, 0xB6, 0xB4] : List Byte) → t.cyc = 4) ∧
    (op ∈ ([0xAD, 0xAE, 0xAC] : List Byte) → t.cyc = 4) ∧
    (op ∈ ([0xBD, 0xBC] : List Byte) → t.cyc = if 0xFF < o.toNat + s.X.toNat then 5 else 4) ∧
    (op ∈ ([0xB9, 0xBE] : List Byte) → t.cyc = if 0xFF < o.toNat + s.Y.toNat then 5 else 4) ∧
    (op = 0xA1 → t.cyc = 6) ∧
    (op = 0xB1 → t.cyc = if 0xFF < (Memory.read s.mem o.toNat).toNat + s.Y.toNat then 6 else 5) ∧
    (isLoadOpcode op = false → t.cyc = 0)

/-- The source's flag property: an immediate load of `v` into any register sets Zero iff `v` is 0 and Negative iff
bit 7 of `v` is 1, seen through the two predicates (95_test_vectors.md T1; R76, R72; opcodes A2, A0 by D2). -/
def Obligations.ImmediateStepSetsPredicates : Prop :=
  ∀ (s : State) (v : Byte), streamByte s 0 ∈ ([0xA9, 0xA2, 0xA0] : List Byte) → streamByte s 1 = v →
    ∃ t : State, step s = .next t ∧ t.isZeroSet = decide (v.toNat = 0) ∧ t.isNegativeSet = decide (128 ≤ v.toNat)

/-- Nothing stops the core: every instruction, every `execute` and every step answers a next state, and there is no
fault (R130). -/
def Obligations.NothingFaultsOrRefuses : Prop :=
  (∀ (i : Instr) (s : State), ∃ t, exec i s = .next t) ∧ (∀ s : State, ∃ t, execute s = .next t) ∧
  (∀ s : State, ∃ t, step s = .next t) ∧ (Fault → False)

/-- A run goes on for as long as the host steps it; it moves `pc` forward by one to three bytes a step, modulo 65536,
and never changes memory or the cursor (R157, R81, R39). -/
def Obligations.RunsGoOnForever : Prop :=
  ∀ (k : Nat) (s : State), SafeRun k s ∧ ∃ (t : State) (d : Nat), Host.Core.run Sys2Proof.core k s = .next t ∧
    k ≤ d ∧ d ≤ 3 * k ∧ t.pc.toNat = (s.pc.toNat + d) % 65536 ∧ t.mem = s.mem ∧ t.cursor = s.cursor

/-- Every step keeps memory canonical and leaves legal flags and a counter of at most 6 (R15, R17, R39, R76). The
canonical form is the model's; the raw flag bytes are D3, log entry 5. -/
def Obligations.StepKeepsInvariant : Prop :=
  ∀ s t : State, StepInv s → step s = .next t → StepInv t

/-- After a step the flags are legal and the counter holds one instruction's cost, whatever the state before: the
flags and the counter do not accumulate (R158, R15 (c), (d), R17; positions by D3, log entry 5). For an unrecognized
opcode the clear of the earlier flags is the spec's resolution of conflict C2, log entry 9. -/
def Obligations.StepForgetsEarlierFlagsAndCost : Prop :=
  ∀ s t : State, step s = .next t → FlagsLegal t ∧ t.cyc ≤ 6 ∧
    ∀ (q : Byte) (c : Nat) (b : Byte), step { s with p := q, cyc := c, ir := b } = .next t

/-! ### Reset and the host -/

/-- The state after reset, for every `START` and `MEM_INIT`, and for the model's own choice of the two (R21, R151;
0x0200 by D7, `ir` by D8, the memory of `State.reset` by D9: log entries 2, 3, 1). -/
def Obligations.ResetValues : Prop :=
  (∀ (start : Addr) (image : Memory),
    let s := State.resetWith start image
    s.A = 0x00 ∧ s.X = 0x00 ∧ s.Y = 0x00 ∧ s.p = 0x00 ∧ s.cyc = 0 ∧ s.ir = 0x00 ∧
    s.pc = start ∧ s.cursor = start ∧ s.mem = image) ∧
  State.reset = State.resetWith 0x0200 []

/-- The invariant holds at reset, for every `START` and every canonical image (R21, R15). The canonical form is the
model's; `State.reset` takes the model's own image, D9, log entry 1. -/
def Obligations.ResetMeetsInvariant : Prop :=
  StepInv State.reset ∧ ∀ (start : Addr) (image : Memory), Memory.wf image → StepInv (State.resetWith start image)

/-- Every image of the 65536 bytes is a canonical memory, so `State.resetWith` takes every `MEM_INIT` (R18, R6;
D9, log entry 1). -/
def Obligations.EveryMemoryImageIsRepresented : Prop :=
  ∀ image : Nat → Byte, ∃ m : Memory, Memory.wf m ∧ ∀ a : Nat, a < 65536 → Memory.read m a = image a

/-- Canonical memories that read alike are the same list (R18, R30: a memory is what its bytes are). -/
def Obligations.MemoriesThatReadAlikeAreEqual : Prop :=
  ∀ m n : Memory, Memory.wf m → Memory.wf n →
    (∀ a : Nat, a < 65536 → Memory.read m a = Memory.read n a) → m = n

/-- The host's `write` stores one byte, leaves every other byte, and moves nothing else, the cursor included (R32). -/
def Obligations.HostWriteStoresOneByte : Prop :=
  ∀ (s : State) (a : Addr) (v : Byte), ∃ t : State, hostOp (.write a v) s = .next t ∧
    Memory.read t.mem a.toNat = v ∧ (∀ b : Nat, b ≠ a.toNat → Memory.read t.mem b = Memory.read s.mem b) ∧
    t = { s with mem := t.mem }

/-- `append` stores at the cursor and advances it modulo 65536, and changes nothing else (R33; the wrap by D17, log
entry 15). -/
def Obligations.HostAppendAdvancesCursor : Prop :=
  ∀ (s : State) (v : Byte), ∃ t : State, hostOp (.append v) s = .next t ∧
    Memory.read t.mem s.cursor.toNat = v ∧
    (∀ b : Nat, b ≠ s.cursor.toNat → Memory.read t.mem b = Memory.read s.mem b) ∧
    t.cursor.toNat = (s.cursor.toNat + 1) % 65536 ∧ t = { s with mem := t.mem, cursor := t.cursor }

/-- The host sets one register and nothing else: not another register, not `p`, not `cyc` (R10, R11 (c); D12, log
entry 14). -/
def Obligations.HostSetsOneRegister : Prop :=
  ∀ (s : State) (v : Byte),
    hostOp (.setReg .A v) s = .next { s with A := v } ∧ hostOp (.setReg .X v) s = .next { s with X := v } ∧
    hostOp (.setReg .Y v) s = .next { s with Y := v }

/-- A byte the host writes at `pc` is the byte the next `fetch` or operand read returns, and no host write changes
the latched opcode (R43, R31). -/
def Obligations.FetchSeesHostWritesAtOnce : Prop :=
  ∀ (s : State) (v : Byte),
    (s.writeByte s.pc v).fetch.1 = v ∧ (s.writeByte s.pc v).nextByte.1 = v ∧
    ∀ (a : Addr) (w : Byte), (s.writeByte a w).ir = s.ir ∧ executeTag (s.writeByte a w) = executeTag s ∧
      (a ≠ s.pc → (s.writeByte a w).fetch.1 = s.fetch.1)

/-- Every host operation keeps memory canonical and the flags legal (R156, R15). The canonical form is the model's; the
raw flag bytes are D3, log entry 5; that no host operation writes `p` by itself is D12, log entry 14. -/
def Obligations.HostOperationsKeepInvariant : Prop :=
  ∀ (op : HostOp) (s t : State), Inv s → hostOp op s = .next t → Inv t

/-- In every state the host can reach from reset, in any order of operations and for any `START` and `MEM_INIT`, V, B,
D, I, C and bit 5 are 0 and N and Z are not both 1; and no operation ever fails (R15 (c), (d), R130; positions by D3,
log entry 5; that the host cannot write `p` by D12, log entry 14). Its step lemma, over every state, is
`Obligations.HostOperationsKeepInvariant`. -/
def Obligations.OnlyNAndZAreEverSet : Prop :=
  ∀ (start : Addr) (image : Memory) (ops : List HostOp), ∃ t : State,
    hostRun ops (State.resetWith start image) = .next t ∧
    t.flag .V = false ∧ t.flag .B = false ∧ t.flag .D = false ∧ t.flag .I = false ∧ t.flag .C = false ∧
    t.p.getLsbD 5 = false ∧ (t.isNegativeSet && t.isZeroSet) = false

/-- Memory changes only by the host's `write` and `append`: no instruction, no `fetch`, no `execute` and no step
stores, and any sequence of operations without those two leaves memory as it was, and the cursor (R39). -/
def Obligations.OnlyTheHostWritesMemory : Prop :=
  (∀ (i : Instr) (s t : State), exec i s = .next t → t.mem = s.mem) ∧
  (∀ (s t : State), step s = .next t → t.mem = s.mem) ∧
  ∀ (ops : List HostOp) (s : State), (∀ op ∈ ops, HostOp.storesToMemory op = false) →
    ∃ t : State, hostRun ops s = .next t ∧ t.mem = s.mem ∧ t.cursor = s.cursor
end

