-- ==== Sys2Proof/Laws/State.lean ====
section
/-! SUPPORT. One lemma per field of State per update, so that no later proof unfolds a record update. -/

namespace Sys2Proof.Machine

@[simp] theorem State.writeByte_A (s : State) (a : Addr) (v : Byte) : (s.writeByte a v).A = s.A := rfl
@[simp] theorem State.writeByte_X (s : State) (a : Addr) (v : Byte) : (s.writeByte a v).X = s.X := rfl
@[simp] theorem State.writeByte_Y (s : State) (a : Addr) (v : Byte) : (s.writeByte a v).Y = s.Y := rfl
@[simp] theorem State.writeByte_pc (s : State) (a : Addr) (v : Byte) : (s.writeByte a v).pc = s.pc := rfl
@[simp] theorem State.writeByte_p (s : State) (a : Addr) (v : Byte) : (s.writeByte a v).p = s.p := rfl
@[simp] theorem State.writeByte_ir (s : State) (a : Addr) (v : Byte) : (s.writeByte a v).ir = s.ir := rfl
@[simp] theorem State.writeByte_cyc (s : State) (a : Addr) (v : Byte) : (s.writeByte a v).cyc = s.cyc := rfl
@[simp] theorem State.writeByte_mem (s : State) (a : Addr) (v : Byte) : (s.writeByte a v).mem = Memory.write s.mem a.toNat v := rfl
@[simp] theorem State.writeByte_cursor (s : State) (a : Addr) (v : Byte) : (s.writeByte a v).cursor = s.cursor := rfl

@[simp] theorem State.append_A (s : State) (v : Byte) : (s.append v).A = s.A := rfl
@[simp] theorem State.append_X (s : State) (v : Byte) : (s.append v).X = s.X := rfl
@[simp] theorem State.append_Y (s : State) (v : Byte) : (s.append v).Y = s.Y := rfl
@[simp] theorem State.append_pc (s : State) (v : Byte) : (s.append v).pc = s.pc := rfl
@[simp] theorem State.append_p (s : State) (v : Byte) : (s.append v).p = s.p := rfl
@[simp] theorem State.append_ir (s : State) (v : Byte) : (s.append v).ir = s.ir := rfl
@[simp] theorem State.append_cyc (s : State) (v : Byte) : (s.append v).cyc = s.cyc := rfl
@[simp] theorem State.append_mem (s : State) (v : Byte) : (s.append v).mem = Memory.write s.mem s.cursor.toNat v := rfl
@[simp] theorem State.append_cursor (s : State) (v : Byte) : (s.append v).cursor = s.cursor + 1 := rfl

@[simp] theorem State.advancePc_A (s : State) (n : Nat) : (s.advancePc n).A = s.A := rfl
@[simp] theorem State.advancePc_X (s : State) (n : Nat) : (s.advancePc n).X = s.X := rfl
@[simp] theorem State.advancePc_Y (s : State) (n : Nat) : (s.advancePc n).Y = s.Y := rfl
@[simp] theorem State.advancePc_pc (s : State) (n : Nat) : (s.advancePc n).pc = s.pc + BitVec.ofNat 16 n := rfl
@[simp] theorem State.advancePc_p (s : State) (n : Nat) : (s.advancePc n).p = s.p := rfl
@[simp] theorem State.advancePc_ir (s : State) (n : Nat) : (s.advancePc n).ir = s.ir := rfl
@[simp] theorem State.advancePc_cyc (s : State) (n : Nat) : (s.advancePc n).cyc = s.cyc := rfl
@[simp] theorem State.advancePc_mem (s : State) (n : Nat) : (s.advancePc n).mem = s.mem := rfl
@[simp] theorem State.advancePc_cursor (s : State) (n : Nat) : (s.advancePc n).cursor = s.cursor := rfl

@[simp] theorem State.addCycles_A (s : State) (n : Nat) : (s.addCycles n).A = s.A := rfl
@[simp] theorem State.addCycles_X (s : State) (n : Nat) : (s.addCycles n).X = s.X := rfl
@[simp] theorem State.addCycles_Y (s : State) (n : Nat) : (s.addCycles n).Y = s.Y := rfl
@[simp] theorem State.addCycles_pc (s : State) (n : Nat) : (s.addCycles n).pc = s.pc := rfl
@[simp] theorem State.addCycles_p (s : State) (n : Nat) : (s.addCycles n).p = s.p := rfl
@[simp] theorem State.addCycles_ir (s : State) (n : Nat) : (s.addCycles n).ir = s.ir := rfl
@[simp] theorem State.addCycles_cyc (s : State) (n : Nat) : (s.addCycles n).cyc = s.cyc + n := rfl
@[simp] theorem State.addCycles_mem (s : State) (n : Nat) : (s.addCycles n).mem = s.mem := rfl
@[simp] theorem State.addCycles_cursor (s : State) (n : Nat) : (s.addCycles n).cursor = s.cursor := rfl

@[simp] theorem State.nextByte_A (s : State) : s.nextByte.2.A = s.A := rfl
@[simp] theorem State.nextByte_X (s : State) : s.nextByte.2.X = s.X := rfl
@[simp] theorem State.nextByte_Y (s : State) : s.nextByte.2.Y = s.Y := rfl
@[simp] theorem State.nextByte_pc (s : State) : s.nextByte.2.pc = s.pc + 1 := rfl
@[simp] theorem State.nextByte_p (s : State) : s.nextByte.2.p = s.p := rfl
@[simp] theorem State.nextByte_ir (s : State) : s.nextByte.2.ir = s.ir := rfl
@[simp] theorem State.nextByte_cyc (s : State) : s.nextByte.2.cyc = s.cyc := rfl
@[simp] theorem State.nextByte_mem (s : State) : s.nextByte.2.mem = s.mem := rfl
@[simp] theorem State.nextByte_cursor (s : State) : s.nextByte.2.cursor = s.cursor := rfl

@[simp] theorem State.fetch_A (s : State) : s.fetch.2.A = s.A := rfl
@[simp] theorem State.fetch_X (s : State) : s.fetch.2.X = s.X := rfl
@[simp] theorem State.fetch_Y (s : State) : s.fetch.2.Y = s.Y := rfl
@[simp] theorem State.fetch_pc (s : State) : s.fetch.2.pc = s.pc + 1 := rfl
@[simp] theorem State.fetch_p (s : State) : s.fetch.2.p = s.p := rfl
@[simp] theorem State.fetch_ir (s : State) : s.fetch.2.ir = s.readByte s.pc := rfl
@[simp] theorem State.fetch_cyc (s : State) : s.fetch.2.cyc = 0 := rfl
@[simp] theorem State.fetch_mem (s : State) : s.fetch.2.mem = s.mem := rfl
@[simp] theorem State.fetch_cursor (s : State) : s.fetch.2.cursor = s.cursor := rfl

@[simp] theorem State.clearFlags_A (s : State) : s.clearFlags.A = s.A := rfl
@[simp] theorem State.clearFlags_X (s : State) : s.clearFlags.X = s.X := rfl
@[simp] theorem State.clearFlags_Y (s : State) : s.clearFlags.Y = s.Y := rfl
@[simp] theorem State.clearFlags_pc (s : State) : s.clearFlags.pc = s.pc := rfl
@[simp] theorem State.clearFlags_p (s : State) : s.clearFlags.p = 0x00 := rfl
@[simp] theorem State.clearFlags_ir (s : State) : s.clearFlags.ir = s.ir := rfl
@[simp] theorem State.clearFlags_cyc (s : State) : s.clearFlags.cyc = s.cyc := rfl
@[simp] theorem State.clearFlags_mem (s : State) : s.clearFlags.mem = s.mem := rfl
@[simp] theorem State.clearFlags_cursor (s : State) : s.clearFlags.cursor = s.cursor := rfl

@[simp] theorem State.orFlags_A (s : State) (f : Byte) : (s.orFlags f).A = s.A := rfl
@[simp] theorem State.orFlags_X (s : State) (f : Byte) : (s.orFlags f).X = s.X := rfl
@[simp] theorem State.orFlags_Y (s : State) (f : Byte) : (s.orFlags f).Y = s.Y := rfl
@[simp] theorem State.orFlags_pc (s : State) (f : Byte) : (s.orFlags f).pc = s.pc := rfl
@[simp] theorem State.orFlags_p (s : State) (f : Byte) : (s.orFlags f).p = s.p ||| f := rfl
@[simp] theorem State.orFlags_ir (s : State) (f : Byte) : (s.orFlags f).ir = s.ir := rfl
@[simp] theorem State.orFlags_cyc (s : State) (f : Byte) : (s.orFlags f).cyc = s.cyc := rfl
@[simp] theorem State.orFlags_mem (s : State) (f : Byte) : (s.orFlags f).mem = s.mem := rfl
@[simp] theorem State.orFlags_cursor (s : State) (f : Byte) : (s.orFlags f).cursor = s.cursor := rfl

/-! `setReg` writes one general register. -/

@[simp] theorem State.setReg_A (s : State) (r : Reg) (v : Byte) :
    (s.setReg r v).A = if r = .A then v else s.A := by cases r <;> rfl
@[simp] theorem State.setReg_X (s : State) (r : Reg) (v : Byte) :
    (s.setReg r v).X = if r = .X then v else s.X := by cases r <;> rfl
@[simp] theorem State.setReg_Y (s : State) (r : Reg) (v : Byte) :
    (s.setReg r v).Y = if r = .Y then v else s.Y := by cases r <;> rfl
@[simp] theorem State.setReg_pc (s : State) (r : Reg) (v : Byte) : (s.setReg r v).pc = s.pc := by
  cases r <;> rfl
@[simp] theorem State.setReg_p (s : State) (r : Reg) (v : Byte) : (s.setReg r v).p = s.p := by
  cases r <;> rfl
@[simp] theorem State.setReg_ir (s : State) (r : Reg) (v : Byte) : (s.setReg r v).ir = s.ir := by
  cases r <;> rfl
@[simp] theorem State.setReg_cyc (s : State) (r : Reg) (v : Byte) : (s.setReg r v).cyc = s.cyc := by
  cases r <;> rfl
@[simp] theorem State.setReg_mem (s : State) (r : Reg) (v : Byte) : (s.setReg r v).mem = s.mem := by
  cases r <;> rfl
@[simp] theorem State.setReg_cursor (s : State) (r : Reg) (v : Byte) : (s.setReg r v).cursor = s.cursor := by
  cases r <;> rfl

/-! Reading a general register. -/

@[simp] theorem State.reg_A (s : State) : s.reg .A = s.A := rfl
@[simp] theorem State.reg_X (s : State) : s.reg .X = s.X := rfl
@[simp] theorem State.reg_Y (s : State) : s.reg .Y = s.Y := rfl
@[simp] theorem State.index_X (s : State) : s.index .X = s.X := rfl
@[simp] theorem State.index_Y (s : State) : s.index .Y = s.Y := rfl

@[simp] theorem State.reg_setReg_self (s : State) (r : Reg) (v : Byte) : (s.setReg r v).reg r = v := by
  cases r <;> rfl

theorem State.reg_setReg_ne (s : State) {r q : Reg} (v : Byte) (h : q ≠ r) : (s.setReg r v).reg q = s.reg q := by
  cases r <;> cases q <;> first | rfl | exact absurd rfl h

/-! The reset state, for any `START` and `MEM_INIT` (10_state.md R21). -/

@[simp] theorem State.resetWith_A (a : Addr) (m : Memory) : (State.resetWith a m).A = 0x00 := rfl
@[simp] theorem State.resetWith_X (a : Addr) (m : Memory) : (State.resetWith a m).X = 0x00 := rfl
@[simp] theorem State.resetWith_Y (a : Addr) (m : Memory) : (State.resetWith a m).Y = 0x00 := rfl
@[simp] theorem State.resetWith_pc (a : Addr) (m : Memory) : (State.resetWith a m).pc = a := rfl
@[simp] theorem State.resetWith_p (a : Addr) (m : Memory) : (State.resetWith a m).p = 0x00 := rfl
@[simp] theorem State.resetWith_ir (a : Addr) (m : Memory) : (State.resetWith a m).ir = Config.irReset := rfl
@[simp] theorem State.resetWith_cyc (a : Addr) (m : Memory) : (State.resetWith a m).cyc = 0 := rfl
@[simp] theorem State.resetWith_mem (a : Addr) (m : Memory) : (State.resetWith a m).mem = m := rfl
@[simp] theorem State.resetWith_cursor (a : Addr) (m : Memory) : (State.resetWith a m).cursor = a := rfl

end Sys2Proof.Machine
end

