-- ==== Sys2Proof/Laws/Decode.lean ====
section
/-! SUPPORT. What the opcode map, the instruction stream and the decoder can answer. -/

namespace Sys2Proof.Laws

open Sys2Proof.Machine

/-- The opcode map has a row exactly for the 18 load opcodes of `isLoadOpcode`. -/
theorem opcodeTable_isSome : ∀ op : Byte, (opcodeTable op).isSome = isLoadOpcode op := by decide

theorem opcodeTable_none {op : Byte} (h : isLoadOpcode op = false) : opcodeTable op = none := by
  have := opcodeTable_isSome op
  rw [h] at this
  simpa using this

theorem operandCount_unrecognized {op : Byte} (h : isLoadOpcode op = false) : operandCount op = 0 := by
  simp [operandCount, opcodeTable_none h]

/-- A row of the map holds the opcode it was looked up by and is one of the 18 rows. -/
theorem opcodeTable_some {op : Byte} {r : OpcodeRow} (h : opcodeTable op = some r) :
    r ∈ opcodeRows ∧ r.opcode = op :=
  ⟨List.mem_of_find?_eq_some h, by simpa using List.find?_some h⟩

@[simp] theorem operandAddr_split (a : Addr) : operandAddr (operandLow a) (operandHigh a) = a := by
  apply BitVec.eq_of_getLsbD_eq
  intro i hi
  simp only [operandAddr, operandLow, operandHigh, BitVec.getLsbD_append, BitVec.getLsbD_setWidth,
    BitVec.getLsbD_ushiftRight]
  by_cases h : i < 8
  · simp [h]
  · have h8 : i - 8 < 8 := by omega
    have : 8 + (i - 8) = i := by omega
    simp [h, h8, this]

@[simp] theorem operandLow_operandAddr (b1 b2 : Byte) : operandLow (operandAddr b1 b2) = b1 := by
  apply BitVec.eq_of_getLsbD_eq
  intro i hi
  simp only [operandAddr, operandLow, BitVec.getLsbD_setWidth, BitVec.getLsbD_append]
  simp [hi]

@[simp] theorem operandHigh_operandAddr (b1 b2 : Byte) : operandHigh (operandAddr b1 b2) = b2 := by
  apply BitVec.eq_of_getLsbD_eq
  intro i hi
  simp only [operandAddr, operandHigh, BitVec.getLsbD_setWidth, BitVec.getLsbD_ushiftRight, BitVec.getLsbD_append]
  simp [hi]

/-- The assembled operand is `b2 * 256 + b1` (30_encoding.md R55). -/
theorem operandAddr_eq (b1 b2 : Byte) : operandAddr b1 b2 = BitVec.ofNat 16 (b2.toNat * 256 + b1.toNat) := by
  apply BitVec.eq_of_toNat_eq
  have h1 := b1.isLt
  have h2 := b2.isLt
  simp only [operandAddr, BitVec.toNat_append, BitVec.toNat_ofNat]
  rw [Nat.shiftLeft_eq, Nat.mul_comm, ← Nat.two_pow_add_eq_or_of_lt h1, Nat.mod_eq_of_lt (by omega)]

@[simp] theorem operandStream_length (n : Nat) (s : State) : (s.operandStream n).1.length = n := by
  induction n generalizing s with
  | zero => rfl
  | succ n ih => simp [State.operandStream, ih]

/-- Consuming `n` operand bytes moves `pc` by `n` and changes nothing else. -/
theorem operandStream_state (n : Nat) (s : State) : (s.operandStream n).2 = s.advancePc n := by
  induction n generalizing s with
  | zero => simp [State.operandStream, State.advancePc]
  | succ n ih =>
    simp only [State.operandStream, ih, State.advancePc, State.nextByte]
    congr 1
    rw [BitVec.add_assoc, Nat.add_comm n 1, BitVec.ofNat_add]
    rfl

/-- No, one or two operand bytes, at `pc` and `pc + 1`. -/
theorem operandStream_zero (s : State) : (s.operandStream 0).1 = [] := rfl
theorem operandStream_one (s : State) : (s.operandStream 1).1 = [s.readByte s.pc] := rfl
theorem operandStream_two (s : State) : (s.operandStream 2).1 = [s.readByte s.pc, s.readByte (s.pc + 1)] := rfl

/-- A format reads its operands from any list that has enough bytes. -/
theorem decodeForm_ok {op : Byte} {f : Form} {bs : List Byte} (h : f.operandBytes ≤ bs.length) :
    ∃ i, decodeForm op f bs = .ok (i, bs.drop f.operandBytes) := by
  rcases f with make | make <;> rcases bs with _ | ⟨b1, _ | ⟨b2, bs⟩⟩ <;>
    simp_all [Form.operandBytes, decodeForm]

/-- What comes after the operands is handed back and does not matter. -/
theorem decodeForm_append {op : Byte} {f : Form} {bs : List Byte} (h : bs.length = f.operandBytes) (rest : List Byte)
    {i : Instr} (hd : decodeForm op f bs = .ok (i, [])) : decodeForm op f (bs ++ rest) = .ok (i, rest) := by
  rcases f with make | make <;> rcases bs with _ | ⟨b1, _ | ⟨b2, _ | ⟨b3, bs⟩⟩⟩ <;>
    simp_all [Form.operandBytes, decodeForm]

theorem decode_recognized {op : Byte} {r : OpcodeRow} (h : opcodeTable op = some r) (bs : List Byte) :
    decode (op :: bs) = decodeForm op r.form bs := by
  simp [decode, h]

theorem decode_unrecognized {op : Byte} (h : opcodeTable op = none) (bs : List Byte) :
    decode (op :: bs) = .ok (.unrecognized op, bs) := by
  simp [decode, h]

/-- The decoder never refuses the bytes `execute` hands it, and consumes them all. -/
theorem decode_instructionBytes (s : State) : ∃ i, decode s.instructionBytes = .ok (i, []) := by
  cases h : opcodeTable s.ir with
  | none => exact ⟨.unrecognized s.ir, by simp [State.instructionBytes, operandCount, h, decode_unrecognized h, operandStream_zero]⟩
  | some r =>
    obtain ⟨i, hi⟩ := decodeForm_ok (op := s.ir) (f := r.form) (bs := (s.operandStream r.form.operandBytes).1)
      (by simp)
    refine ⟨i, ?_⟩
    simp only [State.instructionBytes, operandCount, h, decode_recognized h, hi]
    rw [List.drop_of_length_le (by simp)]

/-- `execute` runs the instruction decoded from the opcode and operand bytes, and never refuses. -/
theorem execute_eq (s : State) : ∃ i, decode s.instructionBytes = .ok (i, []) ∧ execute s = exec i s := by
  obtain ⟨i, hi⟩ := decode_instructionBytes s
  exact ⟨i, hi, by simp [execute, hi]⟩

end Sys2Proof.Laws
end

