-- ==== Sys2Proof/Laws/Exec.lean ====
section
/-! SUPPORT. Everything the load routine and an instruction can do, said once. -/

namespace Sys2Proof.Machine

/-! The load routine, field by field (40_interpreter.md R77). -/

variable (s : State) (dst : Reg) (mode : Mode) (r : Byte × Nat)

@[simp] theorem State.load_reg_self : (s.load dst mode r).reg dst = r.1 := by
  cases dst <;> simp [State.load]

theorem State.load_reg_ne {q : Reg} (h : q ≠ dst) : (s.load dst mode r).reg q = s.reg q := by
  cases q <;> simp_all [State.load] <;> exact fun e => absurd e.symm h

@[simp] theorem State.load_pc : (s.load dst mode r).pc = s.pc + BitVec.ofNat 16 (operandBytes mode) := by
  simp [State.load]

@[simp] theorem State.load_p : (s.load dst mode r).p = deriveFlags r.1 := by simp [State.load]

@[simp] theorem State.load_cyc : (s.load dst mode r).cyc = s.cyc + (baseCycles mode + r.2) := by simp [State.load]

@[simp] theorem State.load_ir : (s.load dst mode r).ir = s.ir := by simp [State.load]

@[simp] theorem State.load_mem : (s.load dst mode r).mem = s.mem := by simp [State.load]

@[simp] theorem State.load_cursor : (s.load dst mode r).cursor = s.cursor := by simp [State.load]

/-- The flag byte bit by bit: N from bit 7 of the byte, Z when it is zero, no other bit (40_interpreter.md R76). -/
theorem deriveFlags_getLsbD (v : Byte) (k : Nat) :
    (deriveFlags v).getLsbD k = ((decide (k = 7) && v.getLsbD 7) || (decide (k = 1) && decide (v = 0x00))) := by
  have key : ∀ v : Byte, ∀ k < 8,
      (deriveFlags v).getLsbD k = ((decide (k = 7) && v.getLsbD 7) || (decide (k = 1) && decide (v = 0x00))) := by
    decide +kernel
  by_cases hk : k < 8
  · exact key v k hk
  · have h7 : k ≠ 7 := by omega
    have h1 : k ≠ 1 := by omega
    rw [BitVec.getLsbD_of_ge _ _ (by omega)]
    simp [h7, h1]

/-- Everything the load routine does to the state. -/
theorem State.load_effect :
    LoadEffect s (s.load dst mode r) dst r.1 (operandBytes mode) (baseCycles mode + r.2) :=
  ⟨by simp, fun _ hq => State.load_reg_ne s dst mode r hq, by simp, fun k => by simp [deriveFlags_getLsbD], by simp,
    by simp, by simp, by simp⟩

/-- The page-crossing test answers 0 or 1. -/
theorem pageCross_le (base : Addr) (i : Byte) : pageCross base i ≤ 1 := by
  unfold pageCross
  split <;> omega

/-- An instruction either runs the load routine into its destination, over as many operand bytes as its encoding has
and at a cost of 2 to 6 cycles, or clears the flags. It never faults and never refuses. -/
theorem exec_cases (i : Instr) (s : State) :
    (∃ dst mode r, destination i = some dst ∧ (encode i).length = 1 + operandBytes mode ∧
      exec i s = .next (s.load dst mode r) ∧ 2 ≤ baseCycles mode + r.2 ∧ baseCycles mode + r.2 ≤ 6) ∨
    (∃ op, i = .unrecognized op ∧ exec i s = .next s.clearFlags) := by
  cases i
  case unrecognized op => exact .inr ⟨op, rfl, rfl⟩
  all_goals
    refine .inl ⟨_, _, _, rfl, rfl, rfl, ?_, ?_⟩ <;>
      simp only [baseCycles, resolveImmediate, resolveZeroPage, resolveZeroPageIndexed, resolveAbsolute,
        resolveAbsoluteIndexed, resolveIndexedIndirect, resolveIndirectIndexed] <;>
      first
        | omega
        | exact Nat.add_le_add (by decide : _ ≤ 5) (pageCross_le _ _)

/-- A run of `k + 1` steps is one step and then a run of `k` steps. -/
theorem run_succ_of_next {M : Host.Core} {s t : M.State} (k : Nat) (h : M.step s = .next t) :
    M.run (k + 1) s = M.run k t := by
  rw [Host.Core.run, h]

end Sys2Proof.Machine
end

