-- ==== Sys2Proof/Laws/Memory.lean ====
section
/-! SUPPORT. The laws of the byte store: a read after a write, and that every write keeps the canonical form. -/

namespace Sys2Proof.Machine

theorem Memory.read_erase_self (m : Memory) (a : Nat) : Memory.read (Memory.erase m a) a = Config.memFill := by
  induction m with
  | nil => rfl
  | cons c m ih =>
    by_cases h : c.1 = a
    · simpa [Memory.erase, h] using ih
    · simpa [Memory.erase, h, Memory.read] using ih

theorem Memory.read_erase_ne (m : Memory) {a b : Nat} (hb : b ≠ a) :
    Memory.read (Memory.erase m a) b = Memory.read m b := by
  induction m with
  | nil => rfl
  | cons c m ih =>
    by_cases h : c.1 = a
    · simpa [Memory.erase, h, Memory.read, Ne.symm hb] using ih
    · by_cases hcb : c.1 = b
      · simp [Memory.erase, Memory.read, hcb, hb]
      · simpa [Memory.erase, h, Memory.read, hcb] using ih

theorem Memory.mem_erase {m : Memory} {a : Nat} {c : Host.Cell} : c ∈ Memory.erase m a ↔ c ∈ m ∧ c.1 ≠ a := by
  simp [Memory.erase]

theorem Memory.read_insert_self {m : Memory} {a : Nat} (v : Byte) (h : ∀ c ∈ m, c.1 ≠ a) :
    Memory.read (Memory.insert m a v) a = v := by
  induction m with
  | nil => simp [Memory.insert, Memory.read]
  | cons c m ih =>
    have hc : c.1 ≠ a := h c List.mem_cons_self
    by_cases hlt : a < c.1
    · simp [Memory.insert, hlt, Memory.read]
    · simpa [Memory.insert, hlt, Memory.read, hc] using ih fun d hd => h d (List.mem_cons_of_mem c hd)

theorem Memory.read_insert_ne (m : Memory) {a b : Nat} (v : Byte) (hb : b ≠ a) :
    Memory.read (Memory.insert m a v) b = Memory.read m b := by
  induction m with
  | nil => simp [Memory.insert, Memory.read, Ne.symm hb]
  | cons c m ih =>
    by_cases hlt : a < c.1
    · simp [Memory.insert, hlt, Memory.read, Ne.symm hb]
    · by_cases hcb : c.1 = b
      · have hlt' : ¬ a < b := hcb ▸ hlt
        simp [Memory.insert, hlt', Memory.read, hcb]
      · simpa [Memory.insert, hlt, Memory.read, hcb] using ih

theorem Memory.mem_insert {m : Memory} {a : Nat} {v : Byte} {c : Host.Cell} :
    c ∈ Memory.insert m a v ↔ c = (a, v) ∨ c ∈ m := by
  induction m with
  | nil => simp [Memory.insert]
  | cons d m ih =>
    by_cases hlt : a < d.1
    · simp [Memory.insert, hlt]
    · simp only [Memory.insert, hlt, if_false, List.mem_cons, ih]
      tauto

/-- A write is seen by a read of its address, in any memory. -/
@[simp] theorem Memory.read_write_self (m : Memory) (a : Nat) (v : Byte) :
    Memory.read (Memory.write m a v) a = v := by
  unfold Memory.write
  split
  · next h => rw [Memory.read_erase_self, h]
  · exact Memory.read_insert_self v fun c hc => (Memory.mem_erase.mp hc).2

/-- A write leaves every other address as it was, in any memory. -/
theorem Memory.read_write_ne (m : Memory) {a b : Nat} (v : Byte) (h : b ≠ a) :
    Memory.read (Memory.write m a v) b = Memory.read m b := by
  unfold Memory.write
  split
  · exact Memory.read_erase_ne m h
  · rw [Memory.read_insert_ne _ v h, Memory.read_erase_ne m h]

theorem Memory.wf_nil : Memory.wf [] := ⟨List.Pairwise.nil, by simp⟩

theorem Memory.wf_erase {m : Memory} (h : Memory.wf m) (a : Nat) : Memory.wf (Memory.erase m a) :=
  ⟨h.1.filter _, fun c hc => h.2 c (Memory.mem_erase.mp hc).1⟩

theorem Memory.pairwise_insert {m : Memory} {a : Nat} (v : Byte) (h : m.Pairwise (fun c d => c.1 < d.1))
    (hne : ∀ c ∈ m, c.1 ≠ a) : (Memory.insert m a v).Pairwise (fun c d => c.1 < d.1) := by
  induction m with
  | nil => simp [Memory.insert]
  | cons c m ih =>
    have hc : c.1 ≠ a := hne c List.mem_cons_self
    obtain ⟨hhead, htail⟩ := List.pairwise_cons.mp h
    by_cases hlt : a < c.1
    · simp only [Memory.insert, hlt, if_true]
      refine List.pairwise_cons.mpr ⟨fun d hd => ?_, h⟩
      rcases List.mem_cons.mp hd with rfl | hd
      · exact hlt
      · exact hlt.trans (hhead d hd)
    · simp only [Memory.insert, hlt, if_false]
      refine List.pairwise_cons.mpr ⟨fun d hd => ?_, ih htail fun d hd => hne d (List.mem_cons_of_mem c hd)⟩
      rcases Memory.mem_insert.mp hd with rfl | hd
      · show c.1 < a
        omega
      · exact hhead d hd

/-- Every write inside the address space keeps the canonical form. -/
theorem Memory.wf_write {m : Memory} (h : Memory.wf m) {a : Nat} (ha : a < 65536) (v : Byte) :
    Memory.wf (Memory.write m a v) := by
  unfold Memory.write
  split
  · exact Memory.wf_erase h a
  · next hv =>
    have he := Memory.wf_erase h a
    refine ⟨Memory.pairwise_insert v he.1 fun c hc => (Memory.mem_erase.mp hc).2, fun c hc => ?_⟩
    rcases Memory.mem_insert.mp hc with rfl | hc
    · exact ⟨ha, hv⟩
    · exact he.2 c hc

/-- The host's `write` keeps the canonical form. -/
theorem State.writeByte_wf {s : State} (h : Memory.wf s.mem) (a : Addr) (v : Byte) :
    Memory.wf (s.writeByte a v).mem :=
  Memory.wf_write h a.isLt v

/-- The host's `append` keeps the canonical form. -/
theorem State.append_wf {s : State} (h : Memory.wf s.mem) (v : Byte) : Memory.wf (s.append v).mem :=
  Memory.wf_write h s.cursor.isLt v

theorem State.reset_wf : Memory.wf State.reset.mem := Memory.wf_nil

end Sys2Proof.Machine
end

