-- ==== Sys2Proof/Laws/PerInstr.lean ====
section
/-! SUPPORT. Statements made per instruction, one lemma per constructor of `Instr`. -/

namespace Sys2Proof.Laws.EncodedLength

/-- The encoding is the opcode byte and as many operand bytes as that byte alone decides (30_encoding.md R50). -/
def Statement (i : Instr) : Prop :=
  i.wf = true → ∃ op operands, encode i = op :: operands ∧ operands.length = operandCount op

theorem ldaImmediate (o : Byte) : Statement (.ldaImmediate o) := fun _ => ⟨0xA9, _, rfl, rfl⟩
theorem ldaZeroPage (o : Byte) : Statement (.ldaZeroPage o) := fun _ => ⟨0xA5, _, rfl, rfl⟩
theorem ldaZeroPageX (o : Byte) : Statement (.ldaZeroPageX o) := fun _ => ⟨0xB5, _, rfl, rfl⟩
theorem ldaAbsolute (ea : Addr) : Statement (.ldaAbsolute ea) := fun _ => ⟨0xAD, _, rfl, rfl⟩
theorem ldaAbsoluteX (base : Addr) : Statement (.ldaAbsoluteX base) := fun _ => ⟨0xBD, _, rfl, rfl⟩
theorem ldaAbsoluteY (base : Addr) : Statement (.ldaAbsoluteY base) := fun _ => ⟨0xB9, _, rfl, rfl⟩
theorem ldaIndexedIndirect (o : Byte) : Statement (.ldaIndexedIndirect o) := fun _ => ⟨0xA1, _, rfl, rfl⟩
theorem ldaIndirectIndexed (o : Byte) : Statement (.ldaIndirectIndexed o) := fun _ => ⟨0xB1, _, rfl, rfl⟩
theorem ldxImmediate (o : Byte) : Statement (.ldxImmediate o) := fun _ => ⟨0xA2, _, rfl, rfl⟩
theorem ldxZeroPage (o : Byte) : Statement (.ldxZeroPage o) := fun _ => ⟨0xA6, _, rfl, rfl⟩
theorem ldxZeroPageY (o : Byte) : Statement (.ldxZeroPageY o) := fun _ => ⟨0xB6, _, rfl, rfl⟩
theorem ldxAbsolute (ea : Addr) : Statement (.ldxAbsolute ea) := fun _ => ⟨0xAE, _, rfl, rfl⟩
theorem ldxAbsoluteY (base : Addr) : Statement (.ldxAbsoluteY base) := fun _ => ⟨0xBE, _, rfl, rfl⟩
theorem ldyImmediate (o : Byte) : Statement (.ldyImmediate o) := fun _ => ⟨0xA0, _, rfl, rfl⟩
theorem ldyZeroPage (o : Byte) : Statement (.ldyZeroPage o) := fun _ => ⟨0xA4, _, rfl, rfl⟩
theorem ldyZeroPageX (o : Byte) : Statement (.ldyZeroPageX o) := fun _ => ⟨0xB4, _, rfl, rfl⟩
theorem ldyAbsolute (ea : Addr) : Statement (.ldyAbsolute ea) := fun _ => ⟨0xAC, _, rfl, rfl⟩
theorem ldyAbsoluteX (base : Addr) : Statement (.ldyAbsoluteX base) := fun _ => ⟨0xBC, _, rfl, rfl⟩

theorem unrecognized (op : Byte) : Statement (.unrecognized op) := by
  intro h
  refine ⟨op, [], rfl, ?_⟩
  have key : ∀ b : Byte, isLoadOpcode b = false → operandCount b = 0 := by decide
  exact (key op (by simpa [Instr.wf] using h)).symm

end Sys2Proof.Laws.EncodedLength
end

