-- ==== Sys2Proof/Tests/Slice0.lean ====
section
/-! SUPPORT. Tests of the model against spec/95_test_vectors.md and the worked examples of the rules: expected results
are the spec's, none is the model's own answer. Then one witness for each statement that has hypotheses. -/

namespace Sys2Proof.Tests

open Sys2Proof.Machine

/-- The state a step or an operation answers, if it answers one. -/
def answer (o : Host.Outcome State Fault Refusal) : Option State :=
  match o with
  | .next t => some t
  | .fault _ => none
  | .refused _ => none

/-- Writes the bytes at ascending addresses, as the host would. -/
def place (a : Addr) : List Byte → State → State
  | [], s => s
  | b :: bs, s => place (a + 1) bs (s.writeByte a b)

/-- The reset state with code at 0x0200. -/
def code (bs : List Byte) : State := place 0x0200 bs State.reset

/-- What a vector lists of the end state: `A`, `X`, `Y`, `p`, `pc`, `cyc`. -/
def view (t : State) : Byte × Byte × Byte × Byte × Addr × Nat := (t.A, t.X, t.Y, t.p, t.pc, t.cyc)

/-- One instruction step, seen through `view`. -/
def stepView (s : State) : Option (Byte × Byte × Byte × Byte × Addr × Nat) := (answer (step s)).map view

/-! ### The ill-formed term the one check of WellFormed refuses, for every load opcode -/

theorem test_wf_refuses_load_opcodes : ∀ op ∈ loadOpcodes, (Instr.unrecognized op).wf = false := by decide

theorem test_wf_accepts_unrecognized : (Instr.unrecognized 0xEA).wf = true := by decide

/-! ### Decoding: words written out from 30_encoding.md R51, R52, R55, R56 -/

theorem test_decode_ldaImmediate : decode [0b10101001, 0x39] = .ok (.ldaImmediate 0x39, []) := by decide
theorem test_decode_ldaZeroPage : decode [0b10100101, 0x10] = .ok (.ldaZeroPage 0x10, []) := by decide
theorem test_decode_ldaZeroPageX : decode [0b10110101, 0xF8] = .ok (.ldaZeroPageX 0xF8, []) := by decide
theorem test_decode_ldaAbsolute : decode [0b10101101, 0x34, 0x12] = .ok (.ldaAbsolute 0x1234, []) := by decide
theorem test_decode_ldaAbsoluteX : decode [0b10111101, 0xFF, 0x3F] = .ok (.ldaAbsoluteX 0x3FFF, []) := by decide
theorem test_decode_ldaAbsoluteY : decode [0b10111001, 0x00, 0x30] = .ok (.ldaAbsoluteY 0x3000, []) := by decide
theorem test_decode_ldaIndexedIndirect : decode [0b10100001, 0x20] = .ok (.ldaIndexedIndirect 0x20, []) := by decide
theorem test_decode_ldaIndirectIndexed : decode [0b10110001, 0x9A] = .ok (.ldaIndirectIndexed 0x9A, []) := by decide
theorem test_decode_ldxImmediate : decode [0b10100010, 0x00] = .ok (.ldxImmediate 0x00, []) := by decide
theorem test_decode_ldxZeroPage : decode [0b10100110, 0xFF] = .ok (.ldxZeroPage 0xFF, []) := by decide
theorem test_decode_ldxZeroPageY : decode [0b10110110, 0xFF] = .ok (.ldxZeroPageY 0xFF, []) := by decide
theorem test_decode_ldxAbsolute : decode [0b10101110, 0x00, 0x80] = .ok (.ldxAbsolute 0x8000, []) := by decide
theorem test_decode_ldxAbsoluteY : decode [0b10111110, 0x01, 0x20] = .ok (.ldxAbsoluteY 0x2001, []) := by decide
theorem test_decode_ldyImmediate : decode [0b10100000, 0xF1] = .ok (.ldyImmediate 0xF1, []) := by decide
theorem test_decode_ldyZeroPage : decode [0b10100100, 0x00] = .ok (.ldyZeroPage 0x00, []) := by decide
theorem test_decode_ldyZeroPageX : decode [0b10110100, 0x80] = .ok (.ldyZeroPageX 0x80, []) := by decide
theorem test_decode_ldyAbsolute : decode [0b10101100, 0xFF, 0xFF] = .ok (.ldyAbsolute 0xFFFF, []) := by decide
theorem test_decode_ldyAbsoluteX : decode [0b10111100, 0x02, 0xFF] = .ok (.ldyAbsoluteX 0xFF02, []) := by decide
theorem test_decode_unrecognized : decode [0b11101010] = .ok (.unrecognized 0xEA, []) := by decide

theorem test_decode_truncated : decode [0xAD, 0x34] = .error (.truncated 0xAD) := by decide

theorem test_decode_empty : decode [] = .error .noOpcode := by decide

/-- Table words: bit 0 is the opcode byte's least significant bit; bits from `nbits` up are 0. -/
theorem test_tableWord : decodeTableWord 24 0x3FFFBD = some (.ldaAbsoluteX 0x3FFF) ∧
    decodeTableWord 8 0x3FFFBD = some (.ldaAbsoluteX 0x0000) ∧ decodeTableWord 8 0xEA = some (.unrecognized 0xEA) := by
  decide

theorem test_step_runs_fetchWord :
    stepView (State.reset.withFetchWord 16 0xF1A9) = some (0xF1, 0x00, 0x00, 0x80, 0x0202, 2) := by decide

/-! ### The pure functions (95_test_vectors.md 2.1) -/

theorem test_deriveFlags : [0x00, 0x01, 0x7F, 0x80, 0x81, 0xFF].map deriveFlags =
    [0x02, 0x00, 0x00, 0x80, 0x80, 0x80] := by decide

theorem test_zpAdd : [zpAdd 0xF8 0x65, zpAdd 0xFF 0x01, zpAdd 0xFF 0xFF, zpAdd 0x80 0x80, zpAdd 0x10 0x20, zpAdd 0 0] =
    [0x5D, 0x00, 0xFE, 0x00, 0x30, 0x00] := by decide

theorem test_pageCross : [pageCross 0x3FFF 0x01, pageCross 0x3F00 0xFF, pageCross 0x3F01 0xFF, pageCross 0xFFFF 0x01,
    pageCross 0xFF80 0xFF, pageCross 0x12FF 0x00, pageCross 0x1280 0x80, pageCross 0x3000 0x10] =
    [1, 0, 1, 1, 1, 0, 1, 0] := by decide

/-! ### Vectors of 95_test_vectors.md, one instruction step each -/

/-- S1. -/
theorem test_step_ldaImmediate :
    stepView (code [0xA9, 0x39]) =
      some (0x39, 0x00, 0x00, 0x00, 0x0202, 2) := by decide

/-- S3. -/
theorem test_step_ldaImmediate_negative :
    stepView (code [0xA9, 0xF1]) =
      some (0xF1, 0x00, 0x00, 0x80, 0x0202, 2) := by decide

/-- R101. -/
theorem test_step_ldaZeroPage :
    stepView ((code [0xA5, 0x10]).writeByte 0x0010 0x00) =
      some (0x00, 0x00, 0x00, 0x02, 0x0202, 3) := by decide

/-- S4. -/
theorem test_step_ldaZeroPageX :
    stepView ({ ((code [0xB5, 0xF8]).writeByte 0x005D 0xE3).writeByte 0x015D 0x3E with X := 0x65 }) =
      some (0xE3, 0x65, 0x00, 0x80, 0x0202, 4) := by decide

/-- V17. -/
theorem test_step_ldaAbsolute :
    stepView (((code [0xAD, 0x34, 0x12]).writeByte 0x1234 0x80).writeByte 0x3412 0x08) =
      some (0x80, 0x00, 0x00, 0x80, 0x0203, 4) := by decide

/-- S5. -/
theorem test_step_ldaAbsoluteX :
    stepView ({ ((code [0xBD, 0xFF, 0x3F]).writeByte 0x4000 0x8A).writeByte 0xFF40 0xA8 with X := 0x01 }) =
      some (0x8A, 0x01, 0x00, 0x80, 0x0203, 5) := by decide

/-- V22. -/
theorem test_step_ldaAbsoluteX_sameLastByte :
    stepView ({ (code [0xBD, 0x00, 0x3F]).writeByte 0x3FFF 0x44 with X := 0xFF }) =
      some (0x44, 0xFF, 0x00, 0x00, 0x0203, 4) := by decide

/-- V24. -/
theorem test_step_ldaAbsoluteY :
    stepView ({ (code [0xB9, 0x00, 0x30]).writeByte 0x3010 0x01 with Y := 0x10 }) =
      some (0x01, 0x00, 0x10, 0x00, 0x0203, 4) := by decide

/-- V25. -/
theorem test_step_ldaAbsoluteY_crossing :
    stepView ({ (code [0xB9, 0x80, 0x12]).writeByte 0x1300 0x00 with Y := 0x80 }) =
      some (0x00, 0x00, 0x80, 0x02, 0x0203, 5) := by decide

/-- V30. -/
theorem test_step_ldaIndexedIndirect :
    stepView ({ ((((code [0xA1, 0x20]).writeByte 0x0020 0x30).writeByte 0x0004 0x12).writeByte 0x0042 0x99).writeByte 0x0032 0x77 with X := 0x04 }) =
      some (0x99, 0x04, 0x00, 0x80, 0x0202, 6) := by decide

/-- V33. -/
theorem test_step_ldaIndexedIndirect_wraps :
    stepView ({ ((((code [0xA1, 0x50]).writeByte 0x0050 0xF0).writeByte 0x0008 0x20).writeByte 0x0010 0x81).writeByte 0x0110 0x18 with X := 0x08 }) =
      some (0x81, 0x08, 0x00, 0x80, 0x0202, 6) := by decide

/-- V36. -/
theorem test_step_ldaIndirectIndexed_pointerWraps :
    stepView ({ (((((code [0xB1, 0xFF]).writeByte 0x00FF 0x34).writeByte 0x0000 0x12).writeByte 0x1235 0x66).writeByte 0x0100 0x99).writeByte 0x9935 0x11 with Y := 0x01 }) =
      some (0x66, 0x00, 0x01, 0x00, 0x0202, 5) := by decide

/-- V37. -/
theorem test_step_ldaIndirectIndexed_crossing :
    stepView ({ (((code [0xB1, 0x10]).writeByte 0x0010 0xFF).writeByte 0x0011 0xFF).writeByte 0x0000 0x81 with Y := 0x01 }) =
      some (0x81, 0x00, 0x01, 0x80, 0x0202, 6) := by decide

/-- V6. -/
theorem test_step_ldxImmediate :
    stepView (code [0xA2, 0x80]) =
      some (0x00, 0x80, 0x00, 0x80, 0x0202, 2) := by decide

/-- V9. -/
theorem test_step_ldxZeroPage :
    stepView (((code [0xA6, 0xFF]).writeByte 0x00FF 0x65).writeByte 0x01FF 0x11) =
      some (0x00, 0x65, 0x00, 0x00, 0x0202, 3) := by decide

/-- V14. -/
theorem test_step_ldxZeroPageY :
    stepView ({ ((code [0xB6, 0xFF]).writeByte 0x0001 0xC0).writeByte 0x0101 0x0C with Y := 0x02 }) =
      some (0x00, 0xC0, 0x02, 0x80, 0x0202, 4) := by decide

/-- V18. -/
theorem test_step_ldxAbsolute :
    stepView (((code [0xAE, 0x00, 0x80]).writeByte 0x8000 0x7F).writeByte 0x0080 0xF7) =
      some (0x00, 0x7F, 0x00, 0x00, 0x0203, 4) := by decide

/-- V26. -/
theorem test_step_ldxAbsoluteY :
    stepView ({ (code [0xBE, 0x01, 0x20]).writeByte 0x2100 0x00 with Y := 0xFF }) =
      some (0x00, 0x00, 0xFF, 0x02, 0x0203, 5) := by decide

/-- V7. -/
theorem test_step_ldyImmediate :
    stepView (code [0xA0, 0x7F]) =
      some (0x00, 0x00, 0x7F, 0x00, 0x0202, 2) := by decide

/-- V10. -/
theorem test_step_ldyZeroPage :
    stepView ((code [0xA4, 0x00]).writeByte 0x0000 0x15) =
      some (0x00, 0x00, 0x15, 0x00, 0x0202, 3) := by decide

/-- V15. -/
theorem test_step_ldyZeroPageX :
    stepView ({ ((code [0xB4, 0x80]).writeByte 0x0000 0x00).writeByte 0x0100 0x99 with X := 0x80 }) =
      some (0x00, 0x80, 0x00, 0x02, 0x0202, 4) := by decide

/-- V19. -/
theorem test_step_ldyAbsolute :
    stepView ((code [0xAC, 0xFF, 0xFF]).writeByte 0xFFFF 0xFF) =
      some (0x00, 0x00, 0xFF, 0x80, 0x0203, 4) := by decide

/-- V27. -/
theorem test_step_ldyAbsoluteX :
    stepView ({ (code [0xBC, 0xFF, 0xFF]).writeByte 0x0000 0x42 with X := 0x01 }) =
      some (0x00, 0x01, 0x42, 0x00, 0x0203, 5) := by decide

/-- V43, step 2: an unrecognized opcode clears the flags and keeps everything else. -/
theorem test_step_unrecognized :
    stepView ({ code [0xEA] with A := 0xF1, p := 0x80, cyc := 2 }) =
      some (0xF1, 0x00, 0x00, 0x00, 0x0201, 0) := by decide

/-- V45, step 1: `0x85` is one byte long. -/
theorem test_step_unrecognized_store :
    stepView (code [0x85, 0xA9, 0x10]) = some (0x00, 0x00, 0x00, 0x00, 0x0201, 0) := by decide

/-- V41: the instruction's bytes and `pc` wrap at the top of memory. -/
theorem test_step_pcWraps :
    stepView (({ place 0xFFFE [0xAD, 0x00, 0x03] State.reset with pc := 0xFFFE }).writeByte 0x0300 0x8C) =
      some (0x8C, 0x00, 0x00, 0x80, 0x0001, 4) := by decide

/-- V46, second `execute`: `ir` still `0xA9`, operand at the current `pc`, costs add. -/
theorem test_execute_again :
    (answer (execute { code [0xA9, 0x39, 0xA2, 0x00] with ir := 0xA9, pc := 0x0202, A := 0x39, cyc := 2 })).map view =
      some (0xA2, 0x00, 0x00, 0x80, 0x0203, 4) := by decide

/-- V47, second `fetch`: the first opcode is discarded. -/
theorem test_fetch_again :
    let t := (code [0xA9, 0xA2, 0x80, 0x01]).fetch.2.fetch.2
    t.ir = 0xA2 ∧ t.pc = 0x0202 ∧ t.cyc = 0 := by decide

/-- V48: `execute` before any `fetch`. -/
theorem test_execute_first :
    answer (execute (code [0xA9, 0x39])) = some (code [0xA9, 0x39]) ∧
      executeTag (code [0xA9, 0x39]) = .unimplemented := by decide

/-- V49: the opcode stays latched over a host write, the operand is read anew. -/
theorem test_write_between :
    (answer (hostRun [.fetch, .write 0x0200 0xA2, .write 0x0201 0x77, .execute] (code [0xA9, 0x39]))).map view =
      some (0x77, 0x00, 0x00, 0x00, 0x0202, 2) := by decide

/-- V50, last `fetch`: `cyc` cleared, flags kept. -/
theorem test_fetch_keeps_flags :
    let t := ({ code [0xBD, 0xFF, 0x3F, 0xEA] with pc := 0x0203, p := 0x80, cyc := 5 }).fetch.2
    t.p = 0x80 ∧ t.cyc = 0 ∧ t.ir = 0xEA ∧ t.pc = 0x0204 := by decide

/-- 20_memory.md R33: `append` lays bytes down from 0x0200 and wraps at 0xFFFF. -/
theorem test_append :
    ((State.reset.append 0xA9).append 0x39).mem = [(0x0200, 0xA9), (0x0201, 0x39)] ∧
      (({ State.reset with cursor := 0xFFFF }).append 0x01).cursor = 0x0000 := by decide

/-- 10_state.md R21. -/
theorem test_reset :
    view State.reset = (0x00, 0x00, 0x00, 0x00, 0x0200, 0) ∧ State.reset.ir = 0x00 ∧ State.reset.cursor = 0x0200 := by
  decide

/-- Writing what an unlisted address reads as removes the entry. -/
theorem test_memory_canonical : ((code [0x05]).writeByte 0x0200 0x00).mem = [] := by decide

/-! ### Witnesses: for each statement with hypotheses, a state and operands that meet them together -/

/-- A state in the middle of things: `BC FF FF` at 0xFFFE, X = 1, all registers and flags in use. -/
def busy : State :=
  { place 0xFFFE [0xBC, 0xFF, 0xFF] State.reset with
    A := 0x11, X := 0x01, Y := 0x33, pc := 0xFFFE, p := 0x80, ir := 0xA9, cyc := 5, cursor := 0xFFFF }

theorem test_witness_DecodeOfEncodedInstruction :
    (Instr.ldyAbsoluteX 0xFFFF).wf = true ∧ (Instr.unrecognized 0xFF).wf = true := by decide

theorem test_witness_DecodedInstructionReencodes :
    decode [0xBC, 0xFF, 0xFF, 0xEA] = .ok (.ldyAbsoluteX 0xFFFF, [0xEA]) := by decide

theorem test_witness_OpcodeAloneDecidesLength :
    (Instr.ldaAbsolute 0x0000).wf = true ∧ (Instr.ldaAbsolute 0xFFFF).wf = true ∧
      encode (.ldaAbsolute 0x0000) = [0xAD, 0x00, 0x00] ∧ encode (.ldaAbsolute 0xFFFF) = [0xAD, 0xFF, 0xFF] := by decide

theorem test_witness_UnrecognizedOpcodeOnlyClearsFlags : isLoadOpcode ({ busy with ir := 0xFF }).ir = false := by decide

theorem test_witness_ExecuteRunsLatchedOpcode :
    decode [busy.ir, streamByte busy 0, streamByte busy 1] = .ok (.ldaImmediate 0xBC, [0xFF]) := by decide

theorem test_witness_SecondExecuteRepeatsOpcode : isLoadOpcode busy.ir = true := by decide

theorem test_witness_DispatchFollowsOpcodeMap : ∃ r, opcodeTable busy.ir = some r := ⟨_, rfl⟩

theorem test_witness_InstructionFrame :
    (∃ t, exec (.ldxZeroPageY 0xFF) busy = .next t) ∧ destination (.ldxZeroPageY 0xFF) ≠ some .A ∧
      (∃ t, exec (.unrecognized 0xEA) busy = .next t) ∧ destination (.unrecognized 0xEA) = none :=
  ⟨⟨_, rfl⟩, by decide, ⟨_, rfl⟩, rfl⟩

theorem test_witness_DestinationIsNeverRead :
    destination (.ldyZeroPageX 0x80) = some .Y ∧ destination (.ldyZeroPageX 0x80) ≠ some .A ∧
      (∃ t, exec (.ldyZeroPageX 0x80) busy = .next t) := ⟨rfl, by decide, ⟨_, rfl⟩⟩

theorem test_witness_CostIsAddedToCounter : ∃ t, exec (.ldaIndirectIndexed 0xFF) busy = .next t := ⟨_, rfl⟩

theorem test_witness_ZeroPageModesSeePageZeroOnly :
    readsPageZeroOnly (.ldaIndexedIndirect 0x20) = true ∧
      (∀ a : Nat, a < 256 → Memory.read [(0x0000, 0xFF), (0x0100, 0x77)] a = Memory.read busy.mem a) ∧
      (∃ t, exec (.ldaIndexedIndirect 0x20) busy = .next t) := by
  refine ⟨rfl, fun a ha => ?_, ⟨_, rfl⟩⟩
  have hm : busy.mem = [(0x0000, 0xFF), (0xFFFE, 0xBC), (0xFFFF, 0xFF)] := by decide
  have h1 : ¬ 0x0100 = a := by omega
  have h2 : ¬ 0xFFFE = a := by omega
  have h3 : ¬ 0xFFFF = a := by omega
  simp only [hm, Memory.read, h1, h2, h3, if_false]

theorem test_witness_StepRunsDecodedInstruction :
    decode [streamByte busy 0, streamByte busy 1, streamByte busy 2] = .ok (.ldyAbsoluteX 0xFFFF, []) := by decide

theorem test_witness_StepMovesPastInstruction : isLoadOpcode (streamByte (code [0xEA]) 0) = false := by decide

/-- One state per clause; at the meeting point of 4 and 5 cycles, low byte and index together are 0xFF and 0x100. -/
theorem test_witness_StepCostPerOpcode :
    streamByte (code [0xA0, 0x00]) 0 = 0xA0 ∧ streamByte (code [0xA4, 0x00]) 0 = 0xA4 ∧
    streamByte (code [0xB4, 0x00]) 0 = 0xB4 ∧ streamByte (code [0xAC, 0x00, 0x00]) 0 = 0xAC ∧
    (stepView ({ code [0xBD, 0x01, 0x00] with X := 0xFE })).map (·.2.2.2.2.2) = some 4 ∧
    (stepView ({ code [0xBC, 0x01, 0x00] with X := 0xFF })).map (·.2.2.2.2.2) = some 5 ∧
    (stepView ({ code [0xBE, 0x01, 0x00] with Y := 0xFE })).map (·.2.2.2.2.2) = some 4 ∧
    (stepView ({ code [0xB9, 0x01, 0x00] with Y := 0xFF })).map (·.2.2.2.2.2) = some 5 ∧
    streamByte (code [0xA1, 0x00]) 0 = 0xA1 ∧ streamByte (code [0xB1, 0x00]) 0 = 0xB1 ∧
    isLoadOpcode (streamByte (code []) 0) = false := by decide

theorem test_witness_ImmediateStepSetsPredicates :
    streamByte (code [0xA2, 0x80]) 0 ∈ ([0xA9, 0xA2, 0xA0] : List Byte) ∧ streamByte (code [0xA2, 0x80]) 1 = 0x80 := by
  decide

theorem test_witness_StepKeepsInvariant : StepInv busy ∧ ∃ t, step busy = .next t := ⟨by decide, ⟨_, rfl⟩⟩

theorem test_witness_StepForgetsEarlierFlagsAndCost : ∃ t, step busy = .next t := ⟨_, rfl⟩

theorem test_witness_ResetMeetsInvariant : Memory.wf [(0x0000, 0x01), (0xFFFF, 0xFF)] := by decide

theorem test_witness_MemoriesThatReadAlikeAreEqual :
    Memory.wf [(0x0000, 0x01), (0xFFFF, 0xFF)] ∧
      ∀ a : Nat, a < 65536 → Memory.read [(0x0000, 0x01), (0xFFFF, 0xFF)] a =
        Memory.read (Memory.write [(0x0000, 0x01)] 0xFFFF 0xFF) a :=
  ⟨by decide, fun _ _ => rfl⟩

theorem test_witness_FetchSeesHostWritesAtOnce : (0x0000 : Addr) ≠ busy.pc := by decide

theorem test_witness_HostOperationsKeepInvariant : Inv busy ∧ ∃ t, hostOp (.append 0x00) busy = .next t :=
  ⟨by decide, ⟨_, rfl⟩⟩

theorem test_witness_OnlyTheHostWritesMemory :
    (∃ t, exec (.ldaAbsolute 0xFFFF) busy = .next t) ∧ (∃ t, step busy = .next t) ∧
      ∀ op ∈ [HostOp.fetch, .execute, .execute, .setReg .X 0xFF], HostOp.storesToMemory op = false :=
  ⟨⟨_, rfl⟩, ⟨_, rfl⟩, by decide⟩

end Sys2Proof.Tests
end

section
/-! PROOFS. The statements of 10_state.md. First what an answered instruction, step and host operation did to the state,
from `exec_cases` and `execute_eq`; then the memory list as a function of addresses; then the statements. -/

namespace Sys2Proof.Machine

/-! ### The flag byte -/

/-- The flag function has the three results of 40_interpreter.md R76: the byte zero cannot have bit 7 set. -/
theorem deriveFlags_legal (v : Byte) : deriveFlags v = 0x00 ∨ deriveFlags v = 0x02 ∨ deriveFlags v = 0x80 := by
  by_cases hzero : v = 0x00
  · subst hzero
    exact .inr (.inl rfl)
  · unfold deriveFlags
    rw [if_neg hzero]
    cases v.getLsbD 7
    · exact .inl rfl
    · exact .inr (.inr rfl)

/-- The legal flag bytes set no flag but N and Z, and not both (10_state.md R15 (c), (d)). -/
theorem FlagsLegal.bits {s : State} (h : FlagsLegal s) :
    s.flag .V = false ∧ s.flag .B = false ∧ s.flag .D = false ∧ s.flag .I = false ∧ s.flag .C = false ∧
      s.p.getLsbD 5 = false ∧ (s.isNegativeSet && s.isZeroSet) = false := by
  unfold State.isNegativeSet State.isZeroSet State.flag
  rcases h with hp | hp | hp <;> rw [hp] <;> decide

/-! ### An instruction -/

/-- `exec_cases` read from the answer: it is the load of the destination at a cost of at most 6 cycles, or, without a
destination, the state with the flags cleared. -/
theorem exec_next_cases {i : Instr} {s t : State} (h : exec i s = .next t) :
    (∃ dst mode r, destination i = some dst ∧ t = s.load dst mode r ∧ baseCycles mode + r.2 ≤ 6) ∨
    (destination i = none ∧ t = s.clearFlags) := by
  rcases exec_cases i s with ⟨dst, mode, r, hdst, -, hexec, -, hcost⟩ | ⟨op, rfl, hexec⟩ <;>
    obtain rfl := Host.Outcome.next.inj (h.symm.trans hexec)
  · exact .inl ⟨dst, mode, r, hdst, rfl, hcost⟩
  · exact .inr ⟨rfl, rfl⟩

theorem exec_exists_next (i : Instr) (s : State) : ∃ t, exec i s = .next t := by
  rcases exec_cases i s with ⟨_, _, _, _, _, hexec, _⟩ | ⟨_, _, hexec⟩
  · exact ⟨_, hexec⟩
  · exact ⟨_, hexec⟩

theorem exec_mem {i : Instr} {s t : State} (h : exec i s = .next t) : t.mem = s.mem := by
  rcases exec_next_cases h with ⟨_, _, _, _, rfl, _⟩ | ⟨_, rfl⟩ <;> simp

theorem exec_flagsLegal {i : Instr} {s t : State} (h : exec i s = .next t) : FlagsLegal t := by
  rcases exec_next_cases h with ⟨_, _, r, _, rfl, _⟩ | ⟨_, rfl⟩
  · simpa [FlagsLegal] using deriveFlags_legal r.1
  · exact .inl rfl

theorem exec_cyc_le {i : Instr} {s t : State} (h : exec i s = .next t) : t.cyc ≤ s.cyc + 6 := by
  rcases exec_next_cases h with ⟨_, _, _, _, rfl, hcost⟩ | ⟨_, rfl⟩
  · simpa using hcost
  · simp

/-- An instruction step is the meaning of some instruction, run in the state after `fetch` (40_interpreter.md R80). -/
theorem step_eq_exec (s : State) : ∃ i, step s = exec i s.fetch.2 := by
  obtain ⟨i, -, hexec⟩ := Laws.execute_eq s.fetch.2
  exact ⟨i, hexec⟩

/-! ### What an instruction reads of the registers -/

/-- The resolved byte and extra cycles come from memory and the registers other than `dst` and `A`. -/
def ReadsOnlyOtherRegisters (dst : Reg) (resolve : State → Byte × Nat) : Prop :=
  ∀ s t : State, t.mem = s.mem → (∀ q : Reg, q ≠ dst → q ≠ .A → t.reg q = s.reg q) → resolve t = resolve s

/-- The general register an index register is. -/
def IndexReg.toReg : IndexReg → Reg
  | .X => .X
  | .Y => .Y

theorem State.reg_toReg (s : State) (idx : IndexReg) : s.reg (IndexReg.toReg idx) = s.index idx := by
  cases idx <;> rfl

theorem State.readByte_congr {s t : State} (h : t.mem = s.mem) (a : Addr) : t.readByte a = s.readByte a := by
  rw [State.readByte, State.readByte, h]

/-- An index register other than the destination is among the registers the resolver may read: none is `A`. -/
theorem State.index_congr {dst : Reg} {idx : IndexReg} {s t : State} (hidx : IndexReg.toReg idx ≠ dst)
    (h : ∀ q : Reg, q ≠ dst → q ≠ .A → t.reg q = s.reg q) : t.index idx = s.index idx := by
  have hA : IndexReg.toReg idx ≠ .A := by cases idx <;> decide
  rw [← State.reg_toReg, ← State.reg_toReg, h _ hidx hA]

namespace ReadsOnlyOtherRegisters

variable {dst : Reg} {idx : IndexReg}

theorem immediate (o : Byte) : ReadsOnlyOtherRegisters dst fun _ => resolveImmediate o := fun _ _ _ _ => rfl

theorem zeroPage (o : Byte) : ReadsOnlyOtherRegisters dst (resolveZeroPage o) := fun s t hmem _ => by
  simp only [resolveZeroPage, State.readByte_congr hmem]

theorem zeroPageIndexed (hidx : IndexReg.toReg idx ≠ dst) (o : Byte) :
    ReadsOnlyOtherRegisters dst (resolveZeroPageIndexed idx o) := fun s t hmem hreg => by
  simp only [resolveZeroPageIndexed, State.readByte_congr hmem, State.index_congr hidx hreg]

theorem absolute (ea : Addr) : ReadsOnlyOtherRegisters dst (resolveAbsolute ea) := fun s t hmem _ => by
  simp only [resolveAbsolute, State.readByte_congr hmem]

theorem absoluteIndexed (hidx : IndexReg.toReg idx ≠ dst) (base : Addr) :
    ReadsOnlyOtherRegisters dst (resolveAbsoluteIndexed idx base) := fun s t hmem hreg => by
  simp only [resolveAbsoluteIndexed, State.readByte_congr hmem, State.index_congr hidx hreg]

theorem indexedIndirect (hX : Reg.X ≠ dst) (o : Byte) :
    ReadsOnlyOtherRegisters dst (resolveIndexedIndirect o) := fun s t hmem hreg => by
  have hindex : t.X = s.X := hreg .X hX (by decide)
  simp only [resolveIndexedIndirect, State.readByte_congr hmem, hindex]

theorem indirectIndexed (hY : Reg.Y ≠ dst) (o : Byte) :
    ReadsOnlyOtherRegisters dst (resolveIndirectIndexed o) := fun s t hmem hreg => by
  have hindex : t.Y = s.Y := hreg .Y hY (by decide)
  simp only [resolveIndirectIndexed, State.readByte_congr hmem, hindex]

end ReadsOnlyOtherRegisters

/-- An instruction without a destination clears the flags in every state; every other one is, in every state, the load
of its destination with one resolver, which reads neither the destination nor `A` (10_state.md R11 (b)). -/
theorem exec_resolver_cases (i : Instr) :
    (∃ dst mode resolve, destination i = some dst ∧ (∀ s, exec i s = .next (s.load dst mode (resolve s))) ∧
      ReadsOnlyOtherRegisters dst resolve) ∨
    (destination i = none ∧ ∀ s, exec i s = .next s.clearFlags) := by
  cases i with
  | unrecognized _ => exact .inr ⟨rfl, fun _ => rfl⟩
  | ldaImmediate o => exact .inl ⟨_, _, _, rfl, fun _ => rfl, .immediate o⟩
  | ldaZeroPage o => exact .inl ⟨_, _, _, rfl, fun _ => rfl, .zeroPage o⟩
  | ldaZeroPageX o => exact .inl ⟨_, _, _, rfl, fun _ => rfl, .zeroPageIndexed (by decide) o⟩
  | ldaAbsolute ea => exact .inl ⟨_, _, _, rfl, fun _ => rfl, .absolute ea⟩
  | ldaAbsoluteX base => exact .inl ⟨_, _, _, rfl, fun _ => rfl, .absoluteIndexed (by decide) base⟩
  | ldaAbsoluteY base => exact .inl ⟨_, _, _, rfl, fun _ => rfl, .absoluteIndexed (by decide) base⟩
  | ldaIndexedIndirect o => exact .inl ⟨_, _, _, rfl, fun _ => rfl, .indexedIndirect (by decide) o⟩
  | ldaIndirectIndexed o => exact .inl ⟨_, _, _, rfl, fun _ => rfl, .indirectIndexed (by decide) o⟩
  | ldxImmediate o => exact .inl ⟨_, _, _, rfl, fun _ => rfl, .immediate o⟩
  | ldxZeroPage o => exact .inl ⟨_, _, _, rfl, fun _ => rfl, .zeroPage o⟩
  | ldxZeroPageY o => exact .inl ⟨_, _, _, rfl, fun _ => rfl, .zeroPageIndexed (by decide) o⟩
  | ldxAbsolute ea => exact .inl ⟨_, _, _, rfl, fun _ => rfl, .absolute ea⟩
  | ldxAbsoluteY base => exact .inl ⟨_, _, _, rfl, fun _ => rfl, .absoluteIndexed (by decide) base⟩
  | ldyImmediate o => exact .inl ⟨_, _, _, rfl, fun _ => rfl, .immediate o⟩
  | ldyZeroPage o => exact .inl ⟨_, _, _, rfl, fun _ => rfl, .zeroPage o⟩
  | ldyZeroPageX o => exact .inl ⟨_, _, _, rfl, fun _ => rfl, .zeroPageIndexed (by decide) o⟩
  | ldyAbsolute ea => exact .inl ⟨_, _, _, rfl, fun _ => rfl, .absolute ea⟩
  | ldyAbsoluteX base => exact .inl ⟨_, _, _, rfl, fun _ => rfl, .absoluteIndexed (by decide) base⟩

/-- Such a resolver does not see the destination or `A` set. -/
theorem ReadsOnlyOtherRegisters.setReg {dst d : Reg} {resolve : State → Byte × Nat}
    (h : ReadsOnlyOtherRegisters dst resolve) (hd : d = dst ∨ d = .A) (s : State) (v : Byte) :
    resolve (s.setReg d v) = resolve s := by
  refine h _ _ (by simp) fun q hdst hA => State.reg_setReg_ne s v ?_
  rcases hd with rfl | rfl
  · exact hdst
  · exact hA

/-- A load overwrites what its destination held. -/
theorem State.load_setReg_self (s : State) (dst : Reg) (v : Byte) (mode : Mode) (r : Byte × Nat) :
    (s.setReg dst v).load dst mode r = s.load dst mode r := by
  cases dst <;> rfl

/-- Setting another register and loading commute. -/
theorem State.load_setReg_ne (s : State) {dst d : Reg} (h : d ≠ dst) (v : Byte) (mode : Mode) (r : Byte × Nat) :
    (s.setReg d v).load dst mode r = (s.load dst mode r).setReg d v := by
  cases d <;> cases dst <;> trivial

theorem State.clearFlags_setReg (s : State) (d : Reg) (v : Byte) :
    (s.setReg d v).clearFlags = s.clearFlags.setReg d v := by
  cases d <;> rfl

/-! ### The host's operations -/

/-- Every host operation answers a state, with legal flags if they were legal: only `execute` changes them, and it
leaves them legal whatever they were. -/
theorem hostOp_keeps_flagsLegal (op : HostOp) (s : State) (h : FlagsLegal s) :
    ∃ t, hostOp op s = .next t ∧ FlagsLegal t := by
  cases op with
  | append v => exact ⟨_, rfl, h⟩
  | write a v => exact ⟨_, rfl, h⟩
  | setReg r v => exact ⟨_, rfl, by simpa [FlagsLegal] using h⟩
  | fetch => exact ⟨_, rfl, h⟩
  | execute =>
    obtain ⟨i, -, hexec⟩ := Laws.execute_eq s
    obtain ⟨t, ht⟩ := exec_exists_next i s
    exact ⟨t, hexec.trans ht, exec_flagsLegal ht⟩

/-- What every host operation answers with and keeps, every sequence of them does (70_reset_and_hazards.md R153). -/
theorem hostRun_keeps {P : State → Prop} (hop : ∀ op s, P s → ∃ t, hostOp op s = .next t ∧ P t)
    (ops : List HostOp) (s : State) (h : P s) : ∃ t, hostRun ops s = .next t ∧ P t := by
  induction ops generalizing s with
  | nil => exact ⟨s, rfl, h⟩
  | cons op ops ih =>
    obtain ⟨u, hu, hPu⟩ := hop op s h
    obtain ⟨t, ht, hPt⟩ := ih u hPu
    exact ⟨t, by rw [hostRun, hu]; exact ht, hPt⟩

/-! ### The memory list as a function of addresses -/

/-- A byte that reads as no unlisted byte is listed. -/
theorem Memory.mem_of_read_ne {m : Memory} {a : Nat} (h : Memory.read m a ≠ Config.memFill) :
    (a, Memory.read m a) ∈ m := by
  induction m with
  | nil => exact absurd rfl h
  | cons c m ih =>
    by_cases hc : c.1 = a
    · simp [Memory.read, ← hc]
    · simp only [Memory.read, hc, if_false] at h ⊢
      exact List.mem_cons_of_mem c (ih h)

/-- With the addresses rising, a read finds every listed byte. -/
theorem Memory.read_of_mem {m : Memory} (h : m.Pairwise (fun c d => c.1 < d.1)) {c : Host.Cell} (hc : c ∈ m) :
    Memory.read m c.1 = c.2 := by
  induction m with
  | nil => simp at hc
  | cons d m ih =>
    obtain ⟨hhead, htail⟩ := List.pairwise_cons.mp h
    rcases List.mem_cons.mp hc with rfl | hc
    · simp [Memory.read]
    · simpa [Memory.read, (hhead c hc).ne] using ih htail hc

/-- A canonical memory lists only what every memory that reads like it lists. -/
theorem Memory.subset_of_read_eq {m n : Memory} (hm : Memory.wf m)
    (h : ∀ a : Nat, a < 65536 → Memory.read m a = Memory.read n a) : m ⊆ n := by
  intro c hc
  obtain ⟨hlt, hne⟩ := hm.2 c hc
  have hn : Memory.read n c.1 = c.2 := (h c.1 hlt).symm.trans (Memory.read_of_mem hm.1 hc)
  have hmem := Memory.mem_of_read_ne (hn.trans_ne hne)
  rwa [hn] at hmem

theorem Memory.wf_nodup {m : Memory} (h : Memory.wf m) : m.Nodup :=
  h.1.imp fun hlt heq => hlt.ne (congrArg Prod.fst heq)

/-- Canonical memories with the same entries are the same list: the addresses fix the order. -/
theorem Memory.eq_of_subset_of_subset {m n : Memory} (hm : Memory.wf m) (hn : Memory.wf n) (hmn : m ⊆ n)
    (hnm : n ⊆ m) : m = n := by
  have hperm : m.Perm n :=
    (List.perm_ext_iff_of_nodup (Memory.wf_nodup hm) (Memory.wf_nodup hn)).mpr fun _ => ⟨(hmn ·), (hnm ·)⟩
  exact hperm.eq_of_pairwise (fun _ _ _ _ hcd hdc => absurd hcd hdc.asymm) hm.1 hn.1

/-- The first `n` bytes of any image, written one after the other, make a canonical memory that reads as they do. -/
theorem Memory.exists_wf_reads_below (image : Nat → Byte) (n : Nat) (hn : n ≤ 65536) :
    ∃ m : Memory, Memory.wf m ∧ ∀ a : Nat, a < n → Memory.read m a = image a := by
  induction n with
  | zero => exact ⟨[], Memory.wf_nil, fun _ ha => absurd ha (Nat.not_lt_zero _)⟩
  | succ n ih =>
    obtain ⟨m, hwf, hread⟩ := ih (by omega)
    refine ⟨Memory.write m n (image n), Memory.wf_write hwf (by omega) _, fun a ha => ?_⟩
    by_cases han : a = n
    · rw [han, Memory.read_write_self]
    · rw [Memory.read_write_ne m _ han, hread a (by omega)]

/-! ### Reset -/

theorem State.resetWith_stepInv (start : Addr) {image : Memory} (h : Memory.wf image) :
    StepInv (State.resetWith start image) :=
  ⟨⟨h, .inl rfl⟩, Nat.zero_le 6⟩

end Sys2Proof.Machine

namespace Sys2Proof.Proofs

open Sys2Proof.Machine

/-- Settles O36: no instruction stores, every instruction leaves legal flags, and `fetch` clears the counter before
one instruction's cost is added. -/
theorem stepKeepsInvariant : Obligations.StepKeepsInvariant := by
  unfold Obligations.StepKeepsInvariant
  rintro s t ⟨⟨hwf, -⟩, -⟩ hstep
  obtain ⟨i, hexec⟩ := step_eq_exec s
  have ht : exec i s.fetch.2 = .next t := hexec.symm.trans hstep
  have hmem : t.mem = s.mem := (exec_mem ht).trans (State.fetch_mem s)
  have hcyc : t.cyc ≤ 6 := by simpa using exec_cyc_le ht
  exact ⟨⟨hmem ▸ hwf, exec_flagsLegal ht⟩, hcyc⟩

/-- Settles O26, by the two things an instruction can do: the frame of the load routine, and that of clearing the
flags. -/
theorem instructionFrame : Obligations.InstructionFrame := by
  unfold Obligations.InstructionFrame
  intro i s t h
  rcases exec_next_cases h with ⟨dst, mode, r, hdst, rfl, -⟩ | ⟨hdst, rfl⟩
  · refine ⟨fun q hq => State.load_reg_ne s dst mode r fun heq => hq (heq ▸ hdst), by simp, by simp, by simp,
      fun hnone => by simp [hdst] at hnone, fun k h7 h1 => ?_⟩
    simp [deriveFlags_getLsbD, h7, h1]
  · exact ⟨fun q _ => by cases q <;> simp, by simp, by simp, by simp, by simp, by simp⟩

/-- Settles O27: the resolver of a load reads neither its destination nor `A`, the load overwrites the one and leaves
the other alone. -/
theorem destinationIsNeverRead : Obligations.DestinationIsNeverRead := by
  unfold Obligations.DestinationIsNeverRead
  refine ⟨fun i s d v hd => ?_, fun i s t v hA ht => ?_⟩
  · rcases exec_resolver_cases i with ⟨dst, mode, resolve, hdst, hexec, hreads⟩ | ⟨hnone, -⟩
    · obtain rfl := Option.some.inj (hd.symm.trans hdst)
      rw [hexec, hexec, hreads.setReg (.inl rfl), State.load_setReg_self]
    · exact absurd (hnone.symm.trans hd) nofun
  · rcases exec_resolver_cases i with ⟨dst, mode, resolve, hdst, hexec, hreads⟩ | ⟨-, hexec⟩ <;>
      obtain rfl := Host.Outcome.next.inj ((hexec s).symm.trans ht)
    · have hne : Reg.A ≠ dst := fun heq => hA (heq ▸ hdst)
      rw [hexec, hreads.setReg (.inr rfl), State.load_setReg_ne s hne]
    · rw [hexec, State.clearFlags_setReg]

/-- Settles O40, by writing the 65536 bytes of the image one after the other. -/
theorem everyMemoryImageIsRepresented : Obligations.EveryMemoryImageIsRepresented := by
  unfold Obligations.EveryMemoryImageIsRepresented
  exact fun image => Memory.exists_wf_reads_below image 65536 le_rfl

/-- Settles O41: such memories list the same bytes, and in the same order. -/
theorem memoriesThatReadAlikeAreEqual : Obligations.MemoriesThatReadAlikeAreEqual := by
  unfold Obligations.MemoriesThatReadAlikeAreEqual
  intro m n hm hn h
  exact Memory.eq_of_subset_of_subset hm hn (Memory.subset_of_read_eq hm h)
    (Memory.subset_of_read_eq hn fun a ha => (h a ha).symm)

/-- Settles O47, by induction on the host's operations: legal flags hold at reset and every operation keeps them. The
image need not be canonical. -/
theorem onlyNAndZAreEverSet : Obligations.OnlyNAndZAreEverSet := by
  unfold Obligations.OnlyNAndZAreEverSet
  intro start image ops
  have hreset : FlagsLegal (State.resetWith start image) := .inl rfl
  obtain ⟨t, hrun, hlegal⟩ := hostRun_keeps hostOp_keeps_flagsLegal ops _ hreset
  exact ⟨t, hrun, hlegal.bits⟩

/-- Settles O38: each field is the one `State.resetWith` is defined by. -/
theorem resetValues : Obligations.ResetValues := by
  unfold Obligations.ResetValues
  exact ⟨fun _ _ => ⟨rfl, rfl, rfl, rfl, rfl, rfl, rfl, rfl, rfl⟩, rfl⟩

/-- Settles O39: every canonical image gives it, and the empty image of `State.reset` is one. -/
theorem resetMeetsInvariant : Obligations.ResetMeetsInvariant := by
  unfold Obligations.ResetMeetsInvariant
  exact ⟨State.resetWith_stepInv Config.start Memory.wf_nil, fun start _ h => State.resetWith_stepInv start h⟩

/-- Settles O44: `hostOp` hands the write to `State.setReg`, one record update per register. -/
theorem hostSetsOneRegister : Obligations.HostSetsOneRegister := by
  unfold Obligations.HostSetsOneRegister
  exact fun _ _ => ⟨rfl, rfl, rfl⟩

end Sys2Proof.Proofs
end

section
/-! PROOFS. The statements of 20_memory.md. First what a read answers after the host's `write`; then which operations
leave the store, its cursor included, as it was; then the statements. -/

namespace Sys2Proof.Machine

/-! ### A read after the host's write -/

@[simp] theorem State.readByte_writeByte_self (s : State) (a : Addr) (v : Byte) : (s.writeByte a v).readByte a = v :=
  Memory.read_write_self s.mem a.toNat v

theorem State.readByte_writeByte_ne (s : State) {a b : Addr} (v : Byte) (h : b ≠ a) :
    (s.writeByte a v).readByte b = s.readByte b :=
  Memory.read_write_ne s.mem v fun heq => h (BitVec.eq_of_toNat_eq heq)

/-- `fetch` returns the byte at `pc` (40_interpreter.md R70). -/
@[simp] theorem State.fetch_fst (s : State) : s.fetch.1 = s.readByte s.pc := rfl

/-- `NextByte()` returns the byte at `pc` (41_addressing_modes.md R85). -/
@[simp] theorem State.nextByte_fst (s : State) : s.nextByte.1 = s.readByte s.pc := rfl

/-- The tag comes from the latched opcode alone (40_interpreter.md R75). -/
theorem executeTag_congr {s t : State} (h : t.ir = s.ir) : executeTag t = executeTag s := by
  rw [executeTag, executeTag, h]

/-! ### What leaves the store as it was -/

/-- The store of `t`, its write cursor included, is that of `s`. -/
def SameStore (s t : State) : Prop := t.mem = s.mem ∧ t.cursor = s.cursor

theorem SameStore.refl (s : State) : SameStore s s := ⟨rfl, rfl⟩

theorem SameStore.trans {s t u : State} (hst : SameStore s t) (htu : SameStore t u) : SameStore s u :=
  ⟨htu.1.trans hst.1, htu.2.trans hst.2⟩

theorem exec_sameStore {i : Instr} {s t : State} (h : exec i s = .next t) : SameStore s t := by
  rcases exec_next_cases h with ⟨dst, mode, r, -, rfl, -⟩ | ⟨-, rfl⟩
  · exact ⟨State.load_mem s dst mode r, State.load_cursor s dst mode r⟩
  · exact SameStore.refl s

/-- A host operation that is no store answers a state with the same store. -/
theorem hostOp_sameStore {op : HostOp} (hop : HostOp.storesToMemory op = false) (s : State) :
    ∃ t, hostOp op s = .next t ∧ SameStore s t := by
  cases op with
  | append v => cases hop
  | write a v => cases hop
  | setReg r v => exact ⟨_, rfl, State.setReg_mem s r v, State.setReg_cursor s r v⟩
  | fetch => exact ⟨_, rfl, State.fetch_mem s, State.fetch_cursor s⟩
  | execute =>
    obtain ⟨i, -, hexec⟩ := Laws.execute_eq s
    obtain ⟨t, ht⟩ := exec_exists_next i s
    exact ⟨t, hexec.trans ht, exec_sameStore ht⟩

theorem hostRun_cons_of_next {op : HostOp} {s t : State} (ops : List HostOp) (h : hostOp op s = .next t) :
    hostRun (op :: ops) s = hostRun ops t := by
  rw [hostRun, h]

/-- Nothing but the host's `write` and `append` changes the store, over any sequence of operations
(20_memory.md R39). -/
theorem hostRun_sameStore (ops : List HostOp) (s : State)
    (hops : ∀ op ∈ ops, HostOp.storesToMemory op = false) : ∃ t, hostRun ops s = .next t ∧ SameStore s t := by
  induction ops generalizing s with
  | nil => exact ⟨s, rfl, SameStore.refl s⟩
  | cons op ops ih =>
    obtain ⟨hop, htail⟩ := List.forall_mem_cons.mp hops
    obtain ⟨u, hu, hsu⟩ := hostOp_sameStore hop s
    obtain ⟨t, ht, hut⟩ := ih u htail
    exact ⟨t, (hostRun_cons_of_next ops hu).trans ht, hsu.trans hut⟩

end Sys2Proof.Machine

namespace Sys2Proof.Proofs

open Sys2Proof.Machine

/-- Settles O48: an instruction loads or clears the flags, a step is an instruction after `fetch`, and a sequence
without the two stores is a chain of operations that each keep the store. -/
theorem onlyTheHostWritesMemory : Obligations.OnlyTheHostWritesMemory := by
  unfold Obligations.OnlyTheHostWritesMemory
  refine ⟨fun i s t h => exec_mem h, fun s t h => ?_, fun ops s hops => hostRun_sameStore ops s hops⟩
  obtain ⟨i, hexec⟩ := step_eq_exec s
  exact (exec_mem (hexec.symm.trans h)).trans (State.fetch_mem s)

/-- Settles O45: `fetch` and `NextByte()` return the byte at `pc`, which the write sets or, elsewhere, leaves alone;
the tag reads only `ir`, which no write changes. -/
theorem fetchSeesHostWritesAtOnce : Obligations.FetchSeesHostWritesAtOnce := by
  unfold Obligations.FetchSeesHostWritesAtOnce
  intro s v
  refine ⟨by simp, by simp, fun a w => ⟨State.writeByte_ir s a w, ?_, fun hne => ?_⟩⟩
  · exact executeTag_congr (State.writeByte_ir s a w)
  · rw [State.fetch_fst, State.fetch_fst, State.writeByte_pc, State.readByte_writeByte_ne s w hne.symm]

/-- Settles O42, by the two laws of a read after a write; the rest of the state is the record `writeByte` updates. -/
theorem hostWriteStoresOneByte : Obligations.HostWriteStoresOneByte := by
  unfold Obligations.HostWriteStoresOneByte
  intro s a v
  exact ⟨s.writeByte a v, rfl, Memory.read_write_self _ _ _, fun b hb => Memory.read_write_ne _ _ hb, rfl⟩

/-- Settles O43, by the same two laws at the cursor; adding one to a 16-bit address is addition modulo 65536. -/
theorem hostAppendAdvancesCursor : Obligations.HostAppendAdvancesCursor := by
  unfold Obligations.HostAppendAdvancesCursor
  intro s v
  exact ⟨s.append v, rfl, Memory.read_write_self _ _ _, fun b hb => Memory.read_write_ne _ _ hb,
    BitVec.toNat_add s.cursor 1, rfl⟩

end Sys2Proof.Proofs
end

section
/-! PROOFS. The statements of 30_encoding.md. First what the opcode byte fixes: how many operand bytes follow, and the
bytes of the instructions of its row; then what an answer of the decoder says of the list it read, and that the encoder
is its inverse; then the statements. -/

namespace Sys2Proof.Laws

/-! ### What the opcode byte fixes -/

/-- No format has more than two operand bytes (30_encoding.md R51, R52). -/
theorem operandCount_le_two (op : Byte) : operandCount op ≤ 2 := by
  unfold operandCount
  split
  · next r _ => cases r.form <;> simp [Form.operandBytes]
  · decide

/-- The opcodes of format OP1 (30_encoding.md R51, R56). -/
theorem operandCount_eq_one_iff : ∀ op : Byte, operandCount op = 1 ↔
    op ∈ ([0xA9, 0xA5, 0xB5, 0xA1, 0xB1, 0xA2, 0xA6, 0xB6, 0xA0, 0xA4, 0xB4] : List Byte) := by
  decide

/-- The opcodes of format OP2 (30_encoding.md R52, R56). -/
theorem operandCount_eq_two_iff : ∀ op : Byte, operandCount op = 2 ↔
    op ∈ ([0xAD, 0xBD, 0xB9, 0xAE, 0xBE, 0xAC, 0xBC] : List Byte) := by
  decide

theorem isLoadOpcode_eq_false_iff (op : Byte) : isLoadOpcode op = false ↔ op ∉ loadOpcodes := by
  simp [isLoadOpcode]

/-- Without a row in the opcode map, the byte is a well-formed unrecognized instruction (30_encoding.md R57). -/
theorem unrecognized_wf_of_opcodeTable_none {op : Byte} (h : opcodeTable op = none) :
    (Instr.unrecognized op).wf = true := by
  simp [Instr.wf, ← opcodeTable_isSome, h]

/-- The instructions a format makes are well-formed, and are encoded as the opcode and their operand bytes, the low
byte first (30_encoding.md R51, R52, R55). -/
def EncodedWith (op : Byte) : Form → Prop
  | .op1 make => ∀ o, (make o).wf = true ∧ encode (make o) = [op, o]
  | .op2 make => ∀ a, (make a).wf = true ∧ encode (make a) = [op, operandLow a, operandHigh a]

/-- The opcode map and the encoder agree on every row. -/
theorem opcodeRows_encodedWith : ∀ r ∈ opcodeRows, EncodedWith r.opcode r.form := by
  simp [opcodeRows, EncodedWith, Instr.wf, encode]

/-! ### What the decoder answers -/

/-- The operand bytes a format read are the ones its instruction is encoded with. -/
theorem EncodedWith.of_decodeForm {op : Byte} {f : Form} (hf : EncodedWith op f) {bs rest : List Byte}
    {i : Instr} (h : decodeForm op f bs = .ok (i, rest)) :
    i.wf = true ∧ encode i ++ rest = op :: bs ∧ bs.length = f.operandBytes + rest.length := by
  match f, bs, h with
  | .op1 make, o :: _, rfl =>
    obtain ⟨hwf, henc⟩ := hf o
    exact ⟨hwf, by simp [henc], Nat.add_comm _ 1⟩
  | .op2 make, b1 :: b2 :: _, rfl =>
    obtain ⟨hwf, henc⟩ := hf (operandAddr b1 b2)
    exact ⟨hwf, by simp [henc], Nat.add_comm _ 2⟩

/-- A format refuses exactly the lists shorter than its operand (30_encoding.md R51, R52). -/
theorem decodeForm_error_iff {op : Byte} {f : Form} {bs : List Byte} {e : DecodeError} :
    decodeForm op f bs = .error e ↔ e = .truncated op ∧ bs.length < f.operandBytes := by
  match f, bs with
  | .op1 _, [] => simp [decodeForm, Form.operandBytes, eq_comm]
  | .op1 _, _ :: _ => simp [decodeForm, Form.operandBytes]
  | .op2 _, [] => simp [decodeForm, Form.operandBytes, eq_comm]
  | .op2 _, [_] => simp [decodeForm, Form.operandBytes, eq_comm]
  | .op2 _, _ :: _ :: _ => simp [decodeForm, Form.operandBytes]

/-- After an opcode byte the decoder refuses exactly the lists shorter than its operand. -/
theorem decode_cons_error_iff {op : Byte} {tail : List Byte} {e : DecodeError} :
    decode (op :: tail) = .error e ↔ e = .truncated op ∧ tail.length < operandCount op := by
  cases h : opcodeTable op with
  | none => simp [decode_unrecognized h, operandCount, h]
  | some r => simp [decode_recognized h, decodeForm_error_iff, operandCount, h]

/-- Everything an answer says of the list that was read: the instruction is well-formed, the list is its bytes and then
the rest, and the opcode byte fixes how many operand bytes were read (30_encoding.md R50, R59). -/
theorem decode_cons_ok {op : Byte} {tail rest : List Byte} {i : Instr} (h : decode (op :: tail) = .ok (i, rest)) :
    i.wf = true ∧ encode i ++ rest = op :: tail ∧ tail.length = operandCount op + rest.length := by
  cases hrow : opcodeTable op with
  | none =>
    rw [decode_unrecognized hrow] at h
    cases h
    exact ⟨unrecognized_wf_of_opcodeTable_none hrow, rfl, by simp [operandCount, hrow]⟩
  | some r =>
    rw [decode_recognized hrow] at h
    obtain ⟨hmem, rfl⟩ := opcodeTable_some hrow
    simpa [operandCount, hrow] using (opcodeRows_encodedWith r hmem).of_decodeForm h

/-! ### Decoding an encoding -/

/-- A well-formed instruction is an unrecognized byte, or its encoding is the opcode of a row of the map and the operand
bytes that row's format makes it from. -/
theorem encode_cases {i : Instr} (h : i.wf = true) :
    (∃ op, i = .unrecognized op ∧ opcodeTable op = none) ∨
    (∃ op r operands, encode i = op :: operands ∧ opcodeTable op = some r ∧
      operands.length = r.form.operandBytes ∧ decodeForm op r.form operands = .ok (i, [])) := by
  cases i
  case unrecognized op => exact .inl ⟨op, rfl, opcodeTable_none (by simpa [Instr.wf] using h)⟩
  all_goals exact .inr ⟨_, _, _, rfl, rfl, rfl, by simp [decodeForm]⟩

/-- The decoder gives back an encoded instruction and what follows it (30_encoding.md R59). -/
theorem decode_encode_append {i : Instr} (h : i.wf = true) (rest : List Byte) :
    decode (encode i ++ rest) = .ok (i, rest) := by
  rcases encode_cases h with ⟨op, rfl, hnone⟩ | ⟨op, r, operands, henc, hrow, hlen, hdec⟩
  · exact decode_unrecognized hnone rest
  · rw [henc, List.cons_append, decode_recognized hrow]
    exact decodeForm_append hlen rest hdec

/-- The operand bytes of an encoding are as many as its opcode byte says (30_encoding.md R50). -/
theorem encode_operands_length {i : Instr} (h : i.wf = true) {op : Byte} {operands : List Byte}
    (henc : encode i = op :: operands) : operands.length = operandCount op := by
  have hdec : decode (op :: operands) = .ok (i, []) := by simpa [henc] using decode_encode_append h []
  obtain ⟨-, -, hlen⟩ := decode_cons_ok hdec
  simpa using hlen

end Sys2Proof.Laws

namespace Sys2Proof.Proofs

open Sys2Proof.Laws

/-- Settles O1: the opcode of an encoding finds the row it was made from, and the row's format reads the operand bytes
and hands back the rest. -/
theorem decodeOfEncodedInstruction : Obligations.DecodeOfEncodedInstruction := by
  unfold Obligations.DecodeOfEncodedInstruction
  exact fun i rest h => decode_encode_append h rest

/-- Settles O2: the list is not empty, and every row makes instructions that are encoded with its own opcode. -/
theorem decodedInstructionReencodes : Obligations.DecodedInstructionReencodes := by
  unfold Obligations.DecodedInstructionReencodes
  intro bs i rest h
  cases bs with
  | nil => cases h
  | cons op tail =>
    obtain ⟨hwf, henc, -⟩ := decode_cons_ok h
    exact ⟨hwf, henc⟩

/-- Settles O3: after an opcode byte the decoder refuses exactly what is shorter than its operand, of one or of two
bytes. -/
theorem decodeRefusesOnlyTruncatedStreams : Obligations.DecodeRefusesOnlyTruncatedStreams := by
  unfold Obligations.DecodeRefusesOnlyTruncatedStreams
  intro bs e
  cases bs with
  | nil => simp [decode, eq_comm]
  | cons op tail =>
    have htwo := operandCount_le_two op
    have hshort : tail.length < operandCount op ↔
        (operandCount op = 1 ∧ tail.length < 1) ∨ (operandCount op = 2 ∧ tail.length < 2) := by omega
    rw [operandCount_eq_one_iff, operandCount_eq_two_iff] at hshort
    rw [decode_cons_error_iff, hshort]
    constructor
    · rintro ⟨he, hlist⟩
      exact .inr ⟨op, tail, rfl, he, hlist⟩
    · rintro (⟨hnil, -⟩ | ⟨_, _, heq, he, hlist⟩)
      · cases hnil
      · cases heq
        exact ⟨he, hlist⟩

/-- Settles O5: both lengths are the operand count of the shared opcode byte. -/
theorem opcodeAloneDecidesLength : Obligations.OpcodeAloneDecidesLength := by
  unfold Obligations.OpcodeAloneDecidesLength
  intro i j op bi bj hi hj hei hej
  have hbi := encode_operands_length hi hei
  have hbj := encode_operands_length hj hej
  exact ⟨hbi.trans hbj.symm, hbi.trans_le (operandCount_le_two op)⟩

/-- Settles O6: the answer is well-formed, so its byte is no load opcode; and such a byte has no row in the opcode map.
The 238 bytes are counted. -/
theorem unrecognizedIffNoLoadOpcode : Obligations.UnrecognizedIffNoLoadOpcode := by
  unfold Obligations.UnrecognizedIffNoLoadOpcode
  refine ⟨fun op tail => ⟨fun h => ?_, fun h => ?_⟩, by decide +kernel⟩
  · obtain ⟨hwf, -, -⟩ := decode_cons_ok h
    exact (isLoadOpcode_eq_false_iff op).mp (by simpa [Instr.wf] using hwf)
  · exact decode_unrecognized (opcodeTable_none ((isLoadOpcode_eq_false_iff op).mpr h)) tail

/-- Settles O4, by running the decoder on each of the six words. -/
theorem sampleWordsDecode : Obligations.SampleWordsDecode := by
  unfold Obligations.SampleWordsDecode
  decide

end Sys2Proof.Proofs
end

section
/-! PROOFS. The statements of 40_interpreter.md. First the two pure readings of a loaded byte; then the instruction
stream from `pc` on and what `execute` and `step` decode from it; then what an instruction reads, costs and moves; then
what a row of the opcode map makes `execute` do; then the statements. -/

namespace Sys2Proof.Machine

open Sys2Proof.Laws

/-! ### The flags of a byte -/

/-- Bit 7 of a byte is 1 exactly from 128 on (40_interpreter.md R76). -/
theorem getLsbD_seven_eq_decide (v : Byte) : v.getLsbD 7 = decide (128 ≤ v.toNat) :=
  (BitVec.msb_eq_getLsbD_last v).symm.trans (BitVec.msb_eq_decide v)

/-- After a load the Zero predicate tells a zero byte (10_state.md R22). -/
theorem State.load_isZeroSet (s : State) (dst : Reg) (mode : Mode) (r : Byte × Nat) :
    (s.load dst mode r).isZeroSet = decide (r.1 = 0x00) := by
  rw [State.isZeroSet, State.flag, State.load_p, deriveFlags_getLsbD]
  simp [Flag.bit]

/-- After a load the Negative predicate is bit 7 of the byte (10_state.md R22). -/
theorem State.load_isNegativeSet (s : State) (dst : Reg) (mode : Mode) (r : Byte × Nat) :
    (s.load dst mode r).isNegativeSet = r.1.getLsbD 7 := by
  rw [State.isNegativeSet, State.flag, State.load_p, deriveFlags_getLsbD]
  simp [Flag.bit]

/-! ### The instruction stream -/

/-- Moving `pc` by a number of bytes is addition modulo 65536 (10_state.md R13). -/
theorem toNat_pc_add (pc : Addr) (n : Nat) : (pc + BitVec.ofNat 16 n).toNat = (pc.toNat + n) % 65536 := by
  simp

theorem State.toNat_fetch_pc (s : State) : s.fetch.2.pc.toNat = (s.pc.toNat + 1) % 65536 :=
  toNat_pc_add s.pc 1

theorem readByte_eq_streamByte (s : State) (k : Nat) : s.readByte (s.pc + BitVec.ofNat 16 k) = streamByte s k := by
  rw [State.readByte, toNat_pc_add, streamByte]

theorem streamByte_zero (s : State) : streamByte s 0 = s.readByte s.pc := by
  simpa using (readByte_eq_streamByte s 0).symm

theorem streamByte_one (s : State) : streamByte s 1 = s.readByte (s.pc + 1) :=
  (readByte_eq_streamByte s 1).symm

/-- `fetch` latches the byte at the head of the stream (40_interpreter.md R70). -/
theorem State.fetch_ir_eq_streamByte (s : State) : s.fetch.2.ir = streamByte s 0 :=
  (streamByte_zero s).symm

/-- After `fetch` the stream starts one byte later. -/
theorem streamByte_fetch (s : State) (k : Nat) : streamByte s.fetch.2 k = streamByte s (1 + k) := by
  rw [streamByte, streamByte, State.toNat_fetch_pc, State.fetch_mem, Nat.mod_add_mod, Nat.add_assoc]

/-- The opcode latched and the two bytes at `pc`: the longest instruction `execute` may have to decode. -/
def pendingBytes (s : State) : List Byte := [s.ir, streamByte s 0, streamByte s 1]

/-- After `fetch` these are the three bytes from the old `pc` on. -/
theorem pendingBytes_fetch (s : State) :
    pendingBytes s.fetch.2 = [streamByte s 0, streamByte s 1, streamByte s 2] := by
  rw [pendingBytes, State.fetch_ir_eq_streamByte, streamByte_fetch, streamByte_fetch]

/-- The pending instruction is read from the front of them (41_addressing_modes.md R97). -/
theorem exists_pendingBytes_eq (s : State) : ∃ tail, pendingBytes s = s.instructionBytes ++ tail := by
  have hcount : operandCount s.ir = 0 ∨ operandCount s.ir = 1 ∨ operandCount s.ir = 2 := by
    have := operandCount_le_two s.ir
    omega
  rw [pendingBytes, streamByte_zero, streamByte_one, State.instructionBytes]
  rcases hcount with h | h | h <;> rw [h]
  · exact ⟨_, rfl⟩
  · exact ⟨_, rfl⟩
  · exact ⟨[], rfl⟩

/-! ### What `execute` and `step` decode -/

/-- The pending bytes always decode, and `execute` is the meaning of what they decode to (40_interpreter.md R71). -/
theorem execute_decoded (s : State) :
    ∃ i rest, decode (pendingBytes s) = .ok (i, rest) ∧ execute s = exec i s := by
  obtain ⟨i, hdec, hexec⟩ := execute_eq s
  obtain ⟨hwf, henc, -⟩ := decode_cons_ok hdec
  rw [List.append_nil] at henc
  obtain ⟨tail, hbytes⟩ := exists_pendingBytes_eq s
  refine ⟨i, tail, ?_, hexec⟩
  rw [hbytes, State.instructionBytes, ← henc]
  exact decode_encode_append hwf tail

theorem execute_of_decode {s : State} {i : Instr} {rest : List Byte}
    (h : decode (pendingBytes s) = .ok (i, rest)) : execute s = exec i s := by
  obtain ⟨j, tail, hdec, hexec⟩ := execute_decoded s
  cases h.symm.trans hdec
  exact hexec

theorem step_of_decode {s : State} {i : Instr} {rest : List Byte}
    (h : decode [streamByte s 0, streamByte s 1, streamByte s 2] = .ok (i, rest)) :
    step s = exec i s.fetch.2 :=
  execute_of_decode ((congrArg decode (pendingBytes_fetch s)).trans h)

/-- An unrecognized opcode clears the flags and reads no operand (40_interpreter.md R74). -/
theorem execute_of_not_load {s : State} (h : isLoadOpcode s.ir = false) : execute s = .next s.clearFlags :=
  execute_of_decode (decode_unrecognized (opcodeTable_none h) _)

/-! ### What an instruction reads -/

/-- A state with the same memory and registers resolves to the same byte and extra cycles. -/
theorem ReadsOnlyOtherRegisters.congr {dst : Reg} {resolve : State → Byte × Nat}
    (h : ReadsOnlyOtherRegisters dst resolve) {s t : State} (hmem : t.mem = s.mem) (hreg : ∀ q, t.reg q = s.reg q) :
    resolve t = resolve s :=
  h s t hmem fun q _ _ => hreg q

/-- The flags are cleared before anything reads them (40_interpreter.md R72). -/
theorem exec_withFlags (i : Instr) (s : State) (q : Byte) : exec i { s with p := q } = exec i s := by
  rcases exec_resolver_cases i with ⟨dst, mode, resolve, -, hexec, hreads⟩ | ⟨-, hexec⟩
  · have hres : resolve { s with p := q } = resolve s := hreads.congr rfl fun r => by cases r <;> rfl
    rw [hexec, hexec, hres]
    rfl
  · rw [hexec, hexec]
    rfl

/-- Adding cycles and loading commute: the load routine adds too (40_interpreter.md R78). -/
theorem State.load_addCycles (s : State) (n : Nat) (dst : Reg) (mode : Mode) (r : Byte × Nat) :
    (s.addCycles n).load dst mode r = (s.load dst mode r).addCycles n := by
  cases dst <;> simp [State.load, State.addCycles, State.orFlags, State.setReg, State.advancePc, State.clearFlags,
    Nat.add_right_comm]

/-- No instruction reads the counter (40_interpreter.md R78). -/
theorem exec_addCycles {i : Instr} {s t : State} (h : exec i s = .next t) (n : Nat) :
    exec i (s.addCycles n) = .next (t.addCycles n) := by
  rcases exec_resolver_cases i with ⟨dst, mode, resolve, -, hexec, hreads⟩ | ⟨-, hexec⟩ <;>
    obtain rfl := Host.Outcome.next.inj ((hexec s).symm.trans h)
  · have hres : resolve (s.addCycles n) = resolve s := hreads.congr rfl fun r => by cases r <;> rfl
    rw [hexec, hres, State.load_addCycles]
  · rw [hexec]
    rfl

/-! ### What an instruction costs and how far it moves -/

theorem exec_ir {i : Instr} {s t : State} (h : exec i s = .next t) : t.ir = s.ir := by
  rcases exec_next_cases h with ⟨_, _, _, _, rfl, _⟩ | ⟨_, rfl⟩ <;> simp

/-- The operand bytes, and no more, are consumed (10_state.md R13). -/
theorem exec_pc {i : Instr} {s t : State} (h : exec i s = .next t) :
    t.pc.toNat = (s.pc.toNat + ((encode i).length - 1)) % 65536 := by
  rcases exec_cases i s with ⟨dst, mode, r, -, hlen, hexec, -, -⟩ | ⟨op, rfl, hexec⟩ <;>
    obtain rfl := Host.Outcome.next.inj (hexec.symm.trans h)
  · rw [hlen, Nat.add_sub_cancel_left, State.load_pc, toNat_pc_add]
  · exact (Nat.mod_eq_of_lt s.pc.isLt).symm

/-- Every encoding holds its opcode byte (30_encoding.md R50). -/
theorem encode_length_pos (i : Instr) : 1 ≤ (encode i).length := by
  cases i <;> exact Nat.le_add_left 1 _

/-- The cost is at most 6, and at least 2 for a load (41_addressing_modes.md R88). -/
theorem exec_cost {i : Instr} {s t : State} (h : exec i s = .next t) :
    ∃ c, t.cyc = s.cyc + c ∧ c ≤ 6 ∧ (destination i ≠ none → 2 ≤ c) := by
  rcases exec_cases i s with ⟨dst, mode, r, -, -, hexec, hlow, hhigh⟩ | ⟨op, rfl, hexec⟩ <;>
    obtain rfl := Host.Outcome.next.inj (hexec.symm.trans h)
  · exact ⟨_, State.load_cyc s dst mode r, hhigh, fun _ => hlow⟩
  · exact ⟨0, rfl, Nat.zero_le 6, fun hne => absurd rfl hne⟩

/-- What a load opcode decodes to has a destination (10_state.md R11). -/
theorem destination_ne_none_of_decode {op : Byte} {tail rest : List Byte} {i : Instr}
    (h : decode (op :: tail) = .ok (i, rest)) (hload : isLoadOpcode op = true) : destination i ≠ none := by
  obtain ⟨hwf, henc, -⟩ := decode_cons_ok h
  intro hnone
  cases i with
  | unrecognized b =>
    cases henc
    simp [Instr.wf, hload] at hwf
  | _ => cases hnone

/-- One `execute`: what the pending bytes decode to, the state it answers, and the cost it adds (40_interpreter.md R71,
R78, R79). -/
theorem execute_effect (s : State) : ∃ i rest t c,
    decode (pendingBytes s) = .ok (i, rest) ∧ execute s = exec i s ∧ exec i s = .next t ∧
      t.cyc = s.cyc + c ∧ c ≤ 6 ∧ (isLoadOpcode s.ir = true → 2 ≤ c) := by
  obtain ⟨i, rest, hdec, hexec⟩ := execute_decoded s
  obtain ⟨t, ht⟩ := exec_exists_next i s
  obtain ⟨c, hcyc, hle, hge⟩ := exec_cost ht
  exact ⟨i, rest, t, c, hdec, hexec, ht, hcyc, hle, fun hload => hge (destination_ne_none_of_decode hdec hload)⟩

/-! ### What a row of the opcode map makes `execute` do -/

/-- An extra cycle comes only in the Absolute-indexed and Indirect Indexed modes, and at most one
(41_addressing_modes.md R88). -/
def ExtraAllowed (mode : Mode) (extra : Nat) : Prop :=
  extra ≤ 1 ∧ (extra = 1 → (∃ idx, mode = .absoluteIndexed idx) ∨ mode = .indirectIndexed)

theorem extraAllowed_zero (mode : Mode) : ExtraAllowed mode 0 := ⟨Nat.zero_le 1, nofun⟩

theorem extraAllowed_absoluteIndexed (idx : IndexReg) (base : Addr) (i : Byte) :
    ExtraAllowed (.absoluteIndexed idx) (pageCross base i) := ⟨pageCross_le base i, fun _ => .inl ⟨idx, rfl⟩⟩

theorem extraAllowed_indirectIndexed (base : Addr) (i : Byte) :
    ExtraAllowed .indirectIndexed (pageCross base i) := ⟨pageCross_le base i, fun _ => .inr rfl⟩

/-- From every state the instruction loads into `dst` in `mode`. -/
def RunsAsLoad (dst : Reg) (mode : Mode) (i : Instr) : Prop :=
  ∀ s, ∃ r : Byte × Nat, exec i s = .next (s.load dst mode r) ∧ ExtraAllowed mode r.2

/-- Every instruction a format makes loads into `dst` in `mode`. -/
def MakesLoads (dst : Reg) (mode : Mode) : Form → Prop
  | .op1 make => ∀ o, RunsAsLoad dst mode (make o)
  | .op2 make => ∀ a, RunsAsLoad dst mode (make a)

/-- The opcode map and `exec` agree on every row (40_interpreter.md R73). -/
theorem opcodeRows_makeLoads : ∀ r ∈ opcodeRows, MakesLoads r.dst r.mode r.form := by
  simp only [opcodeRows, List.cons_append, List.nil_append, List.forall_mem_cons]
  exact ⟨fun _ _ => ⟨_, rfl, extraAllowed_zero _⟩,
    fun _ _ => ⟨_, rfl, extraAllowed_zero _⟩,
    fun _ _ => ⟨_, rfl, extraAllowed_zero _⟩,
    fun _ _ => ⟨_, rfl, extraAllowed_zero _⟩,
    fun _ _ => ⟨_, rfl, extraAllowed_absoluteIndexed _ _ _⟩,
    fun _ _ => ⟨_, rfl, extraAllowed_absoluteIndexed _ _ _⟩,
    fun _ _ => ⟨_, rfl, extraAllowed_zero _⟩,
    fun _ _ => ⟨_, rfl, extraAllowed_indirectIndexed _ _⟩,
    fun _ _ => ⟨_, rfl, extraAllowed_zero _⟩,
    fun _ _ => ⟨_, rfl, extraAllowed_zero _⟩,
    fun _ _ => ⟨_, rfl, extraAllowed_zero _⟩,
    fun _ _ => ⟨_, rfl, extraAllowed_zero _⟩,
    fun _ _ => ⟨_, rfl, extraAllowed_absoluteIndexed _ _ _⟩,
    fun _ _ => ⟨_, rfl, extraAllowed_zero _⟩,
    fun _ _ => ⟨_, rfl, extraAllowed_zero _⟩,
    fun _ _ => ⟨_, rfl, extraAllowed_zero _⟩,
    fun _ _ => ⟨_, rfl, extraAllowed_zero _⟩,
    fun _ _ => ⟨_, rfl, extraAllowed_absoluteIndexed _ _ _⟩, nofun⟩

/-- A format that reads its operand makes one of its instructions. -/
theorem MakesLoads.of_decodeForm {dst : Reg} {mode : Mode} {f : Form} (hf : MakesLoads dst mode f)
    {op : Byte} {bs rest : List Byte} {i : Instr} (h : decodeForm op f bs = .ok (i, rest)) :
    RunsAsLoad dst mode i := by
  match f, bs, h with
  | .op1 _, o :: _, rfl => exact hf o
  | .op2 _, b1 :: b2 :: _, rfl => exact hf (operandAddr b1 b2)

/-- With a row for the latched opcode, `execute` is the load of the row's register in the row's mode
(40_interpreter.md R71, R77). -/
theorem execute_of_row {s : State} {row : OpcodeRow} (h : opcodeTable s.ir = some row) :
    ∃ r : Byte × Nat, execute s = .next (s.load row.dst row.mode r) ∧ ExtraAllowed row.mode r.2 := by
  obtain ⟨i, rest, hdec, hexec⟩ := execute_decoded s
  rw [pendingBytes, decode_recognized h] at hdec
  obtain ⟨r, hload, hextra⟩ := (opcodeRows_makeLoads row (opcodeTable_some h).1).of_decodeForm hdec s
  exact ⟨r, hexec.trans hload, hextra⟩

/-- A step over an immediate load loads the byte after the opcode (41_addressing_modes.md R89). -/
theorem step_immediate {s : State} (h : streamByte s 0 ∈ ([0xA9, 0xA2, 0xA0] : List Byte)) :
    ∃ dst, step s = .next (s.fetch.2.load dst .immediate (resolveImmediate (streamByte s 1))) := by
  simp only [List.mem_cons, List.not_mem_nil, or_false] at h
  rcases h with hop | hop | hop
  · exact ⟨.A, step_of_decode (i := .ldaImmediate _) (by rw [hop]; rfl)⟩
  · exact ⟨.X, step_of_decode (i := .ldxImmediate _) (by rw [hop]; rfl)⟩
  · exact ⟨.Y, step_of_decode (i := .ldyImmediate _) (by rw [hop]; rfl)⟩

end Sys2Proof.Machine

namespace Sys2Proof.Proofs

open Sys2Proof.Laws Sys2Proof.Machine

/-- Settles O13: no resolver reads `p` and the load routine clears it first; and the pending bytes, so the instruction
`execute` runs, do not depend on it. -/
theorem earlierFlagsNeverMatter : Obligations.EarlierFlagsNeverMatter := by
  unfold Obligations.EarlierFlagsNeverMatter
  refine ⟨exec_withFlags, fun s q => ?_⟩
  obtain ⟨i, rest, hdec, hexec⟩ := execute_decoded s
  have hexec' : execute { s with p := q } = exec i { s with p := q } := execute_of_decode hdec
  rw [hexec', exec_withFlags, hexec]

/-- Settles O14: an opcode without a row decodes to `unrecognized`, whose meaning is the clear of the flags. -/
theorem unrecognizedOpcodeOnlyClearsFlags : Obligations.UnrecognizedOpcodeOnlyClearsFlags := by
  unfold Obligations.UnrecognizedOpcodeOnlyClearsFlags
  exact ⟨fun _ _ => rfl, fun _ h => execute_of_not_load h⟩

/-- Settles O15: the tag tells whether the opcode map has a row, and it has one exactly for a load opcode. -/
theorem tagTellsUnrecognizedOpcodes : Obligations.TagTellsUnrecognizedOpcodes := by
  unfold Obligations.TagTellsUnrecognizedOpcodes
  intro s
  rw [← opcodeTable_isSome]
  cases h : opcodeTable s.ir <;> simp [executeTag, h]

/-- Settles O17: `execute` leaves `ir`, so the second one decodes the same opcode; each moves `pc` and adds its cost as
one `execute` does. -/
theorem secondExecuteRepeatsOpcode : Obligations.SecondExecuteRepeatsOpcode := by
  unfold Obligations.SecondExecuteRepeatsOpcode
  intro s
  obtain ⟨i, r, t, c, hdec, hexec, ht, hcyc, hle, hge⟩ := execute_effect s
  obtain ⟨j, q, u, d, hdec', hexec', hu, hcyc', hle', hge'⟩ := execute_effect t
  have hir : t.ir = s.ir := exec_ir ht
  rw [pendingBytes, hir] at hdec'
  rw [hir] at hge'
  exact ⟨i, j, t, u, c, d, r, q, hdec, hdec', hexec.trans ht, hexec', hexec'.trans hu, (exec_ir hu).trans hir,
    exec_pc ht, exec_pc hu, hcyc, hcyc'.trans (congrArg (· + d) hcyc), hle, hle', fun h => ⟨hge h, hge' h⟩⟩

/-- Settles O18: every row makes instructions that run the load routine on its register and mode, whose whole effect is
`LoadEffect`. -/
theorem dispatchFollowsOpcodeMap : Obligations.DispatchFollowsOpcodeMap := by
  unfold Obligations.DispatchFollowsOpcodeMap
  intro s row hrow
  obtain ⟨r, hexec, hle, honly⟩ := execute_of_row hrow
  exact ⟨_, r.1, r.2, hexec, State.load_effect s row.dst row.mode r, hle, honly⟩

/-- Settles O28: the load routine adds a cost of at most 6, which no resolver reads the counter for. -/
theorem costIsAddedToCounter : Obligations.CostIsAddedToCounter := by
  unfold Obligations.CostIsAddedToCounter
  intro i s t n h
  obtain ⟨c, hcyc, hle, -⟩ := exec_cost h
  exact ⟨by omega, by omega, exec_addCycles h n⟩

/-- Settles O31: a step is one `execute` after `fetch`, which took the opcode byte; the operand bytes are the rest of
the encoding. -/
theorem stepMovesPastInstruction : Obligations.StepMovesPastInstruction := by
  unfold Obligations.StepMovesPastInstruction
  intro s
  obtain ⟨i, rest, t, c, hdec, hexec, ht, -⟩ := execute_effect s.fetch.2
  have hstep : step s = .next t := hexec.trans ht
  have hpc : t.pc.toNat = (s.pc.toNat + (encode i).length) % 65536 := by
    rw [exec_pc ht, State.toNat_fetch_pc, Nat.mod_add_mod, Nat.add_assoc,
      Nat.add_sub_cancel' (encode_length_pos i)]
  have hir : t.ir = streamByte s 0 := (exec_ir ht).trans (State.fetch_ir_eq_streamByte s)
  obtain ⟨hmem, hcursor⟩ := exec_sameStore ht
  refine ⟨i, rest, t, (congrArg decode (pendingBytes_fetch s)).symm.trans hdec, hstep, hpc, hir, hmem, hcursor,
    fun h => ?_⟩
  rw [← State.fetch_ir_eq_streamByte] at h ⊢
  exact Host.Outcome.next.inj (hstep.symm.trans (execute_of_not_load h))

/-- Settles O33: the step loads the byte after the opcode, and the two predicates read the flags of a loaded byte. -/
theorem immediateStepSetsPredicates : Obligations.ImmediateStepSetsPredicates := by
  unfold Obligations.ImmediateStepSetsPredicates
  rintro s v hop rfl
  obtain ⟨dst, hstep⟩ := step_immediate hop
  refine ⟨_, hstep, ?_, ?_⟩
  · rw [State.load_isZeroSet, resolveImmediate]
    exact decide_eq_decide.mpr BitVec.toNat_eq
  · rw [State.load_isNegativeSet, resolveImmediate, getLsbD_seven_eq_decide]

/-- Settles O7: a zero byte has bit 7 clear, and bit 7 is set exactly from 128 on. -/
theorem flagFunctionHasThreeResults : Obligations.FlagFunctionHasThreeResults := by
  unfold Obligations.FlagFunctionHasThreeResults
  intro v
  by_cases hzero : v = 0x00
  · subst hzero
    rfl
  · have hne : v.toNat ≠ 0 := fun h => hzero (BitVec.eq_of_toNat_eq h)
    rw [deriveFlags, getLsbD_seven_eq_decide, if_neg hzero, if_neg hne]
    by_cases hneg : 128 ≤ v.toNat <;> simp [hneg, nMask]

/-- Settles O10: the fields of the record `State.fetch` answers; adding one to `pc` is addition modulo 65536. -/
theorem fetchLatchesOpcode : Obligations.FetchLatchesOpcode := by
  unfold Obligations.FetchLatchesOpcode
  exact fun s => ⟨rfl, rfl, State.toNat_fetch_pc s, rfl, rfl, rfl, rfl, rfl, rfl, rfl⟩

/-- Settles O11: the second `fetch` reads the stream one byte later and overwrites what the first latched. -/
theorem secondFetchDiscardsOpcode : Obligations.SecondFetchDiscardsOpcode := by
  unfold Obligations.SecondFetchDiscardsOpcode
  intro s
  have hir : s.fetch.2.fetch.2.ir = streamByte s 1 := by
    rw [State.fetch_ir_eq_streamByte, streamByte_fetch]
  have hpc : s.fetch.2.fetch.2.pc.toNat = (s.pc.toNat + 2) % 65536 := by
    rw [State.toNat_fetch_pc, State.toNat_fetch_pc, Nat.mod_add_mod]
  exact ⟨hir, hir, hpc, rfl, rfl, rfl, rfl, rfl, rfl, rfl⟩

/-- Settles O16: the bytes `execute` hands the decoder are the front of the three, and the decoder has one reading. -/
theorem executeRunsLatchedOpcode : Obligations.ExecuteRunsLatchedOpcode := by
  unfold Obligations.ExecuteRunsLatchedOpcode
  exact fun _ _ _ h => execute_of_decode h

/-- Settles O30: after `fetch` the pending bytes are the three from the old `pc` on. -/
theorem stepRunsDecodedInstruction : Obligations.StepRunsDecodedInstruction := by
  unfold Obligations.StepRunsDecodedInstruction
  intro s i rest h
  rw [← State.fetch_ir_eq_streamByte]
  exact step_of_decode h

end Sys2Proof.Proofs
end

section
/-! PROOFS. The statements of 41_addressing_modes.md. First the addresses the modes form and the page-crossing test, as
numbers; then the operand bytes in stream order; then what each resolver answers, and which resolvers see page 0 alone;
then the statements. -/

namespace Sys2Proof.Machine

open Sys2Proof.Laws

/-! ### Addresses as numbers -/

/-- A byte as an address is the same number (00_scope.md R8). -/
@[simp] theorem toNat_zext16 (b : Byte) : (zext16 b).toNat = b.toNat :=
  BitVec.toNat_setWidth_of_le (by decide)

/-- The zero-page sum is the sum modulo 256 (R86). -/
theorem toNat_zpAdd (a b : Byte) : (zpAdd a b).toNat = (a.toNat + b.toNat) % 256 := BitVec.toNat_add a b

/-- The two-byte address with `b1` low is `b2 * 256 + b1` (30_encoding.md R55). -/
theorem toNat_operandAddr (b1 b2 : Byte) : (operandAddr b1 b2).toNat = b2.toNat * 256 + b1.toNat := by
  rw [operandAddr_eq, BitVec.toNat_ofNat]
  exact Nat.mod_eq_of_lt (by omega)

/-- The 16-bit sum of an address and an index is the sum modulo 65536 (R93, R95). -/
theorem toNat_add_zext16 (base : Addr) (i : Byte) : (base + zext16 i).toNat = (base.toNat + i.toNat) % 65536 := by
  rw [BitVec.toNat_add, toNat_zext16]

/-- A read at a byte taken as an address. -/
theorem State.readByte_zext16 (s : State) (b : Byte) : s.readByte (zext16 b) = Memory.read s.mem b.toNat := by
  rw [State.readByte, toNat_zext16]

/-- A read at a zero-page sum. -/
theorem State.readByte_zpAdd (s : State) (a b : Byte) :
    s.readByte (zext16 (zpAdd a b)) = Memory.read s.mem ((a.toNat + b.toNat) % 256) := by
  rw [State.readByte_zext16, toNat_zpAdd]

/-! ### The page-crossing test -/

/-- The mask 0xFF00 keeps the high byte of the low 16 bits in its place. -/
theorem and_highByteMask (n : Nat) : n &&& 0xFF00 = n / 256 % 256 * 256 := by
  have hbits (m : Nat) : n &&& m <<< 8 = (n >>> 8 &&& m) <<< 8 := by
    apply Nat.eq_of_testBit_eq
    intro i
    by_cases hi : 8 ≤ i <;> simp [hi]
  calc n &&& 0xFF00 = n &&& (2 ^ 8 - 1) <<< 8 := rfl
    _ = n / 256 % 256 * 256 := by
      rw [hbits, Nat.and_two_pow_sub_one_eq_mod, Nat.shiftLeft_eq, Nat.shiftRight_eq_div_pow]

/-- The test is the carry out of the low byte (R87). -/
theorem pageCross_eq (base : Addr) (i : Byte) :
    pageCross base i = if 0xFF < base.toNat % 256 + i.toNat then 1 else 0 := by
  have hmasked : (base + zext16 i) &&& 0xFF00 ≠ base &&& 0xFF00 ↔ 0xFF < base.toNat % 256 + i.toNat := by
    have hmask : (0xFF00 : Addr).toNat = 0xFF00 := rfl
    rw [ne_eq, ← BitVec.toNat_inj, BitVec.toNat_and, BitVec.toNat_and, toNat_add_zext16, hmask, and_highByteMask,
      and_highByteMask]
    omega
  rw [pageCross, if_congr hmasked rfl rfl]

theorem pageCross_eq_one_iff (base : Addr) (i : Byte) :
    pageCross base i = 1 ↔ 0xFF < base.toNat % 256 + i.toNat := by
  rw [pageCross_eq]
  split <;> simp_all

/-! ### Operand bytes -/

/-- After `NextByte()` the stream starts one byte later, as after `fetch`. -/
theorem streamByte_nextByte (s : State) (k : Nat) : streamByte s.nextByte.2 k = streamByte s (1 + k) :=
  streamByte_fetch s k

/-- Operand bytes come in ascending address order (R85, 30_encoding.md R60). -/
theorem State.operandStream_bytes (n : Nat) (s : State) :
    (s.operandStream n).1 = (List.range n).map (streamByte s) := by
  induction n generalizing s with
  | zero => rfl
  | succ n ih =>
    have htail : streamByte s.nextByte.2 = streamByte s ∘ Nat.succ := by
      funext k
      rw [streamByte_nextByte, Nat.add_comm, Function.comp_apply]
    simp only [State.operandStream, ih, List.range_succ_eq_map, List.map_cons, List.map_map, State.nextByte_fst,
      streamByte_zero, htail]

/-! ### What each resolver answers -/

theorem resolveZeroPage_eq (o : Byte) (s : State) : resolveZeroPage o s = (Memory.read s.mem o.toNat, 0) := by
  rw [resolveZeroPage, State.readByte_zext16]

theorem resolveZeroPageIndexed_eq (idx : IndexReg) (o : Byte) (s : State) :
    resolveZeroPageIndexed idx o s = (Memory.read s.mem ((o.toNat + (s.index idx).toNat) % 256), 0) := by
  rw [resolveZeroPageIndexed, State.readByte_zpAdd]

theorem resolveAbsolute_operandAddr (b1 b2 : Byte) (s : State) :
    resolveAbsolute (operandAddr b1 b2) s = (Memory.read s.mem (b2.toNat * 256 + b1.toNat), 0) := by
  rw [resolveAbsolute, State.readByte, toNat_operandAddr]

/-- The low byte alone decides the extra cycle (R93, R87). -/
theorem resolveAbsoluteIndexed_operandAddr (idx : IndexReg) (b1 b2 : Byte) (s : State) :
    resolveAbsoluteIndexed idx (operandAddr b1 b2) s =
      (Memory.read s.mem ((b2.toNat * 256 + b1.toNat + (s.index idx).toNat) % 65536),
        if 0xFF < b1.toNat + (s.index idx).toNat then 1 else 0) := by
  have hlow : (b2.toNat * 256 + b1.toNat) % 256 = b1.toNat := by omega
  rw [resolveAbsoluteIndexed, State.readByte, pageCross_eq, toNat_add_zext16, toNat_operandAddr, hlow]

theorem resolveIndexedIndirect_eq (o : Byte) (s : State) :
    resolveIndexedIndirect o s =
      (Memory.read s.mem (((Memory.read s.mem o.toNat).toNat + (Memory.read s.mem s.X.toNat).toNat) % 256), 0) := by
  rw [resolveIndexedIndirect, State.readByte_zpAdd, State.readByte_zext16, State.readByte_zext16]

/-- Indirect Indexed (Y) is Absolute,Y with its base read from page 0 (R95). -/
theorem resolveIndirectIndexed_eq_absoluteIndexed (o : Byte) (s : State) :
    resolveIndirectIndexed o s = resolveAbsoluteIndexed .Y
      (operandAddr (Memory.read s.mem o.toNat) (Memory.read s.mem ((o.toNat + 1) % 256))) s := by
  have hhi : s.readByte (zext16 (zpAdd o 0x01)) = Memory.read s.mem ((o.toNat + 1) % 256) :=
    State.readByte_zpAdd s o 0x01
  rw [resolveIndirectIndexed, State.readByte_zext16, hhi]
  rfl

/-! ### What a load does -/

/-- An instruction that runs the load routine over its operand bytes loads what its resolver answers, at the base cost
of the mode and the extra cycles (40_interpreter.md R77, R78). -/
theorem loadsTo_of_exec {i : Instr} {bytes : List Byte} {s : State} {dst : Reg} {mode : Mode} {resolved : Byte × Nat}
    {v : Byte} {extra cost : Nat} (hexec : exec i s = .next (s.load dst mode resolved))
    (hlength : bytes.length - 1 = operandBytes mode) (hencode : encode i = bytes) (hresolved : resolved = (v, extra))
    (hcost : baseCycles mode + extra = cost) : LoadsTo i bytes s dst v cost := by
  subst hresolved hcost
  refine ⟨hencode, _, hexec, ?_⟩
  rw [hlength]
  exact State.load_effect s dst mode (v, extra)

/-- A two-byte operand is encoded as the bytes it is made of, the low one first (30_encoding.md R55). -/
theorem encodedOperand_operandAddr (op b1 b2 : Byte) :
    [op, operandLow (operandAddr b1 b2), operandHigh (operandAddr b1 b2)] = [op, b1, b2] := by
  rw [operandLow_operandAddr, operandHigh_operandAddr]

/-! ### Resolvers that see page 0 alone -/

/-- The two memories hold the same bytes below address 256. -/
def AgreeOnPageZero (m n : Memory) : Prop := ∀ a : Nat, a < 256 → Memory.read m a = Memory.read n a

/-- The resolved byte and extra cycles come from the registers and page 0. -/
def SeesPageZeroOnly (resolve : State → Byte × Nat) : Prop :=
  ∀ (s : State) (m : Memory), AgreeOnPageZero m s.mem → resolve { s with mem := m } = resolve s

theorem AgreeOnPageZero.readByte_zext16 {s : State} {m : Memory} (h : AgreeOnPageZero m s.mem) (b : Byte) :
    State.readByte { s with mem := m } (zext16 b) = s.readByte (zext16 b) := by
  rw [State.readByte_zext16, State.readByte_zext16]
  exact h b.toNat b.isLt

theorem State.index_withMem (s : State) (m : Memory) (idx : IndexReg) :
    State.index { s with mem := m } idx = s.index idx := by
  cases idx <;> rfl

namespace SeesPageZeroOnly

theorem immediate (o : Byte) : SeesPageZeroOnly fun _ => resolveImmediate o := fun _ _ _ => rfl

theorem zeroPage (o : Byte) : SeesPageZeroOnly (resolveZeroPage o) := fun s m h => by
  simp only [resolveZeroPage, h.readByte_zext16]

theorem zeroPageIndexed (idx : IndexReg) (o : Byte) : SeesPageZeroOnly (resolveZeroPageIndexed idx o) := fun s m h => by
  simp only [resolveZeroPageIndexed, State.index_withMem, h.readByte_zext16]

theorem indexedIndirect (o : Byte) : SeesPageZeroOnly (resolveIndexedIndirect o) := fun s m h => by
  simp only [resolveIndexedIndirect, h.readByte_zext16]

end SeesPageZeroOnly

/-- An instruction of those modes is, in every state, the load with one resolver that sees page 0 alone, or the clear
of the flags (R89, R90, R91, R94, 40_interpreter.md R74). -/
theorem exec_pageZero_cases {i : Instr} (h : readsPageZeroOnly i = true) :
    (∃ dst mode resolve, (∀ s, exec i s = .next (s.load dst mode (resolve s))) ∧ SeesPageZeroOnly resolve) ∨
    (∀ s, exec i s = .next s.clearFlags) := by
  cases i with
  | unrecognized _ => exact .inr fun _ => rfl
  | ldaImmediate o | ldxImmediate o | ldyImmediate o => exact .inl ⟨_, _, _, fun _ => rfl, .immediate o⟩
  | ldaZeroPage o | ldxZeroPage o | ldyZeroPage o => exact .inl ⟨_, _, _, fun _ => rfl, .zeroPage o⟩
  | ldaZeroPageX o | ldyZeroPageX o => exact .inl ⟨_, _, _, fun _ => rfl, .zeroPageIndexed .X o⟩
  | ldxZeroPageY o => exact .inl ⟨_, _, _, fun _ => rfl, .zeroPageIndexed .Y o⟩
  | ldaIndexedIndirect o => exact .inl ⟨_, _, _, fun _ => rfl, .indexedIndirect o⟩
  | ldaAbsolute _ | ldaAbsoluteX _ | ldaAbsoluteY _ | ldaIndirectIndexed _ | ldxAbsolute _ | ldxAbsoluteY _
  | ldyAbsolute _ | ldyAbsoluteX _ => cases h

/-- Replacing the memory and loading commute: the load routine works on the resolved byte. -/
theorem State.load_withMem (s : State) (m : Memory) (dst : Reg) (mode : Mode) (r : Byte × Nat) :
    State.load dst mode r { s with mem := m } = { s.load dst mode r with mem := m } := by
  cases dst <;> rfl

end Sys2Proof.Machine

namespace Sys2Proof.Proofs

open Sys2Proof.Laws Sys2Proof.Machine

/-- Settles O9: each wording says that the low byte and the index carry; with index 0 they cannot. -/
theorem pageCrossMeansHighByteChanges : Obligations.PageCrossMeansHighByteChanges := by
  unfold Obligations.PageCrossMeansHighByteChanges
  intro base i
  refine ⟨Nat.le_one_iff_eq_zero_or_eq_one.mp (pageCross_le base i), pageCross_eq_one_iff base i, ?_, ?_, ?_⟩
  · rw [pageCross_eq_one_iff]
    omega
  · rw [pageCross_eq_one_iff, and_highByteMask, and_highByteMask]
    omega
  · have hzero : (0x00 : Byte).toNat = 0 := rfl
    rw [pageCross_eq, hzero, if_neg (by omega)]

/-- Settles O12, by induction on the number of bytes; the state is the one with `pc` advanced. -/
theorem operandBytesComeInStreamOrder : Obligations.OperandBytesComeInStreamOrder := by
  unfold Obligations.OperandBytesComeInStreamOrder
  intro n s
  refine ⟨State.operandStream_bytes n s, ?_, ?_⟩ <;> rw [operandStream_state]
  · exact toNat_pc_add s.pc n
  · rfl

/-- Settles O19: the resolver answers the operand byte. -/
theorem immediateLoads : Obligations.ImmediateLoads := by
  unfold Obligations.ImmediateLoads
  exact fun o s => ⟨loadsTo_of_exec rfl rfl rfl rfl rfl, loadsTo_of_exec rfl rfl rfl rfl rfl,
    loadsTo_of_exec rfl rfl rfl rfl rfl⟩

/-- Settles O20: the three share the resolver of Zero Page. -/
theorem zeroPageLoads : Obligations.ZeroPageLoads := by
  unfold Obligations.ZeroPageLoads
  intro o s
  have hres := resolveZeroPage_eq o s
  exact ⟨loadsTo_of_exec rfl rfl rfl hres rfl, loadsTo_of_exec rfl rfl rfl hres rfl,
    loadsTo_of_exec rfl rfl rfl hres rfl⟩

/-- Settles O21: the three share a resolver, which wraps the sum in page 0 and never answers an extra cycle. -/
theorem zeroPageIndexedLoads : Obligations.ZeroPageIndexedLoads := by
  unfold Obligations.ZeroPageIndexedLoads
  intro o s
  have hres := fun idx => resolveZeroPageIndexed_eq idx o s
  exact ⟨loadsTo_of_exec rfl rfl rfl (hres .X) rfl, loadsTo_of_exec rfl rfl rfl (hres .Y) rfl,
    loadsTo_of_exec rfl rfl rfl (hres .X) rfl⟩

/-- Settles O22: the number `b2 * 256 + b1` is the operand the two bytes make, and encodes back to them. -/
theorem absoluteLoads : Obligations.AbsoluteLoads := by
  unfold Obligations.AbsoluteLoads
  intro b1 b2 s ea
  have hres := resolveAbsolute_operandAddr b1 b2 s
  have hencode := fun op => encodedOperand_operandAddr op b1 b2
  rw [← operandAddr_eq b1 b2]
  exact ⟨loadsTo_of_exec rfl rfl (hencode _) hres rfl, loadsTo_of_exec rfl rfl (hencode _) hres rfl,
    loadsTo_of_exec rfl rfl (hencode _) hres rfl⟩

/-- Settles O23: the extra cycle of the resolver is the carry of `b1` and the index. -/
theorem absoluteIndexedLoads : Obligations.AbsoluteIndexedLoads := by
  unfold Obligations.AbsoluteIndexedLoads
  intro b1 b2 s base at' cost
  have hres := fun idx => resolveAbsoluteIndexed_operandAddr idx b1 b2 s
  have hencode := fun op => encodedOperand_operandAddr op b1 b2
  have hcost : ∀ i : Byte, 4 + (if 0xFF < b1.toNat + i.toNat then 1 else 0) = cost i := fun _ => add_ite ..
  rw [← operandAddr_eq b1 b2]
  exact ⟨loadsTo_of_exec rfl rfl (hencode _) (hres .X) (hcost s.X),
    loadsTo_of_exec rfl rfl (hencode _) (hres .Y) (hcost s.Y),
    loadsTo_of_exec rfl rfl (hencode _) (hres .Y) (hcost s.Y),
    loadsTo_of_exec rfl rfl (hencode _) (hres .X) (hcost s.X)⟩

/-- Settles O24: both addends are bytes read in page 0, and their sum wraps there. -/
theorem indexedIndirectLoad : Obligations.IndexedIndirectLoad := by
  unfold Obligations.IndexedIndirectLoad
  exact fun o s => loadsTo_of_exec rfl rfl rfl (resolveIndexedIndirect_eq o s) rfl

/-- Settles O25: past the pointer the mode resolves as Absolute,Y does, from a higher base cost. -/
theorem indirectIndexedLoad : Obligations.IndirectIndexedLoad := by
  unfold Obligations.IndirectIndexedLoad
  intro o s lo hi ea
  have hres := (resolveIndirectIndexed_eq_absoluteIndexed o s).trans (resolveAbsoluteIndexed_operandAddr .Y lo hi s)
  exact loadsTo_of_exec rfl rfl rfl hres (add_ite ..)

/-- Settles O29: the resolvers of these modes read below address 256 only, and the load routine reads no memory. -/
theorem zeroPageModesSeePageZeroOnly : Obligations.ZeroPageModesSeePageZeroOnly := by
  unfold Obligations.ZeroPageModesSeePageZeroOnly
  intro i s t m hi hm ht
  rcases exec_pageZero_cases hi with ⟨dst, mode, resolve, hexec, hsees⟩ | hexec <;>
    obtain rfl := Host.Outcome.next.inj ((hexec s).symm.trans ht)
  · rw [hexec, hsees s m hm, State.load_withMem]
  · rw [hexec]
    rfl

/-- Settles O8: the sum of two bytes is one modulo 256, and a byte as an address is below 256. -/
theorem zeroPageSumStaysInPageZero : Obligations.ZeroPageSumStaysInPageZero := by
  unfold Obligations.ZeroPageSumStaysInPageZero
  refine ⟨fun a b => ?_, fun _ _ _ => ⟨rfl, rfl⟩⟩
  rw [toNat_zext16, toNat_zpAdd]
  exact ⟨rfl, rfl, by omega⟩

end Sys2Proof.Proofs
end

section
/-! PROOFS. The statement of 60_exceptions.md. That an instruction answers is `exec_exists_next`; `execute` and `step`
each run one instruction. -/

namespace Sys2Proof.Machine

open Sys2Proof.Laws

/-- The operand bytes `execute` reads always decode, so it never refuses a truncated stream. -/
theorem execute_exists_next (s : State) : ∃ t, execute s = .next t := by
  obtain ⟨i, -, hexec⟩ := execute_eq s
  rw [hexec]
  exact exec_exists_next i s

theorem step_exists_next (s : State) : ∃ t, step s = .next t := execute_exists_next s.fetch.2

end Sys2Proof.Machine

namespace Sys2Proof.Proofs

open Sys2Proof.Machine

/-- Settles O34: every instruction is a load or an unrecognized opcode, and both answer; `execute` and `step` run one
instruction; the type of faults has no constructor. -/
theorem nothingFaultsOrRefuses : Obligations.NothingFaultsOrRefuses := by
  unfold Obligations.NothingFaultsOrRefuses
  exact ⟨exec_exists_next, execute_exists_next, step_exists_next, nofun⟩

end Sys2Proof.Proofs
end

section
/-! PROOFS. The statements of 70_reset_and_hazards.md. First how far a step moves `pc` and that it keeps the store, and a
run of steps as a chain of such moves; then the cost of a step, read from the load it runs; then what a host operation
does to the memory list; then the statements. -/

namespace Sys2Proof.Machine

open Sys2Proof.Laws

/-! ### How far steps move -/

/-- In `t` the program counter is `d` bytes further than in `s`, modulo 65536, over the same store. -/
def AdvancedBy (d : Nat) (s t : State) : Prop := t.pc.toNat = (s.pc.toNat + d) % 65536 ∧ SameStore s t

theorem AdvancedBy.refl (s : State) : AdvancedBy 0 s s := ⟨(Nat.mod_eq_of_lt s.pc.isLt).symm, SameStore.refl s⟩

theorem AdvancedBy.trans {d e : Nat} {s t u : State} (hst : AdvancedBy d s t) (htu : AdvancedBy e t u) :
    AdvancedBy (d + e) s u := by
  obtain ⟨hpc, hstore⟩ := hst
  obtain ⟨hpc', hstore'⟩ := htu
  refine ⟨?_, hstore.trans hstore'⟩
  rw [hpc', hpc, Nat.mod_add_mod, Nat.add_assoc]

/-- The longest encodings are those of format OP2 (30_encoding.md R52). -/
theorem encode_length_le_three (i : Instr) : (encode i).length ≤ 3 := by
  cases i <;> simp [encode]

/-- A step moves `pc` past the one to three bytes of the instruction there (40_interpreter.md R81). -/
theorem step_advances (s : State) : ∃ t d, step s = .next t ∧ 1 ≤ d ∧ d ≤ 3 ∧ AdvancedBy d s t := by
  obtain ⟨i, -, t, -, hstep, hpc, -, hmem, hcursor, -⟩ := Proofs.stepMovesPastInstruction s
  exact ⟨t, _, hstep, encode_length_pos i, encode_length_le_three i, hpc, hmem, hcursor⟩

/-- A run of `k` steps goes through and moves `pc` by one to three bytes a step. -/
theorem run_advances (k : Nat) (s : State) :
    ∃ t d, Host.Core.run Sys2Proof.core k s = .next t ∧ k ≤ d ∧ d ≤ 3 * k ∧ AdvancedBy d s t := by
  induction k generalizing s with
  | zero => exact ⟨s, 0, rfl, le_rfl, le_rfl, AdvancedBy.refl s⟩
  | succ k ih =>
    obtain ⟨u, d, hstep, hge, hle, hsu⟩ := step_advances s
    obtain ⟨t, e, hrun, hge', hle', hut⟩ := ih u
    exact ⟨t, d + e, (run_succ_of_next k hstep).trans hrun, by omega, by omega, hsu.trans hut⟩

/-! ### What a step costs -/

/-- `fetch` clears the counter, so it then holds the cost of the load a step ran: the load whose encoding starts the
stream at `pc` (40_interpreter.md R70, R78, R80). -/
theorem step_cyc_of_loadsTo {s t : State} (ht : step s = .next t) {i : Instr} {op : Byte} {operands : List Byte}
    {dst : Reg} {v : Byte} {cost : Nat} (hload : LoadsTo i (op :: operands) s.fetch.2 dst v cost) (hwf : i.wf = true)
    (hoperands : operands <+: [streamByte s 1, streamByte s 2]) (hop : streamByte s 0 = op) : t.cyc = cost := by
  obtain ⟨hencode, u, hexec, -, -, -, -, hcyc, -⟩ := hload
  obtain ⟨rest, hrest⟩ := hoperands
  have hdec : decode [streamByte s 0, streamByte s 1, streamByte s 2] = .ok (i, rest) := by
    rw [hop, ← hrest, ← List.cons_append, ← hencode]
    exact decode_encode_append hwf rest
  obtain rfl := Host.Outcome.next.inj (ht.symm.trans ((step_of_decode hdec).trans hexec))
  rw [hcyc, State.fetch_cyc, Nat.zero_add]

/-- A step over an unrecognized opcode adds nothing to the counter `fetch` cleared (40_interpreter.md R74). -/
theorem step_cyc_of_not_load {s t : State} (ht : step s = .next t) (h : isLoadOpcode (streamByte s 0) = false) :
    t.cyc = 0 := by
  rw [← State.fetch_ir_eq_streamByte] at h
  obtain rfl := Host.Outcome.next.inj (ht.symm.trans (execute_of_not_load h))
  rfl

/-! ### Host operations and the memory list -/

/-- Every host operation keeps the canonical form: the two that store write inside the address space, the others leave
the memory as it was. -/
theorem hostOp_keeps_wf (op : HostOp) (s : State) (h : Memory.wf s.mem) :
    ∃ t, hostOp op s = .next t ∧ Memory.wf t.mem := by
  cases hop : op.storesToMemory with
  | false =>
    obtain ⟨t, ht, hmem, -⟩ := hostOp_sameStore hop s
    exact ⟨t, ht, hmem ▸ h⟩
  | true =>
    cases op with
    | append v => exact ⟨_, rfl, State.append_wf h v⟩
    | write a v => exact ⟨_, rfl, State.writeByte_wf h a v⟩
    | setReg _ _ | fetch | execute => cases hop

end Sys2Proof.Machine

namespace Sys2Proof.Proofs

open Sys2Proof.Machine

/-- Settles O35, by induction on the number of steps: the distances of the steps add up, and none changes the store. -/
theorem runsGoOnForever : Obligations.RunsGoOnForever := by
  unfold Obligations.RunsGoOnForever
  intro k s
  obtain ⟨t, d, hrun, hge, hle, hpc, hmem, hcursor⟩ := run_advances k s
  exact ⟨⟨t, hrun⟩, t, d, hrun, hge, hle, hpc, hmem, hcursor⟩

/-- Settles O32: the cost of a step is that of the load its opcode and operand bytes encode, as the statements of the
addressing modes give it in the state after `fetch`. -/
theorem stepCostPerOpcode : Obligations.StepCostPerOpcode := by
  unfold Obligations.StepCostPerOpcode
  intro s
  obtain ⟨t, ht⟩ := step_exists_next s
  refine ⟨t, ht, ?_⟩
  intro op o
  obtain ⟨ldaImm, ldxImm, ldyImm⟩ := immediateLoads o s.fetch.2
  obtain ⟨ldaZp, ldxZp, ldyZp⟩ := zeroPageLoads o s.fetch.2
  obtain ⟨ldaZpX, ldxZpY, ldyZpX⟩ := zeroPageIndexedLoads o s.fetch.2
  obtain ⟨ldaAbs, ldxAbs, ldyAbs⟩ := absoluteLoads o (streamByte s 2) s.fetch.2
  obtain ⟨ldaAbsX, ldaAbsY, ldxAbsY, ldyAbsX⟩ := absoluteIndexedLoads o (streamByte s 2) s.fetch.2
  have costOp1 {i : Instr} {b : Byte} {dst v cost} (h : LoadsTo i [b, o] s.fetch.2 dst v cost) (hwf : i.wf = true) :
      op = b → t.cyc = cost := step_cyc_of_loadsTo ht h hwf ⟨_, rfl⟩
  have costOp2 {i : Instr} {b : Byte} {dst v cost} (h : LoadsTo i [b, o, streamByte s 2] s.fetch.2 dst v cost)
      (hwf : i.wf = true) : op = b → t.cyc = cost := step_cyc_of_loadsTo ht h hwf ⟨_, rfl⟩
  simp only [List.mem_cons, List.not_mem_nil, or_false, or_imp]
  exact ⟨⟨costOp1 ldaImm rfl, costOp1 ldxImm rfl, costOp1 ldyImm rfl⟩,
    ⟨costOp1 ldaZp rfl, costOp1 ldxZp rfl, costOp1 ldyZp rfl⟩,
    ⟨costOp1 ldaZpX rfl, costOp1 ldxZpY rfl, costOp1 ldyZpX rfl⟩,
    ⟨costOp2 ldaAbs rfl, costOp2 ldxAbs rfl, costOp2 ldyAbs rfl⟩,
    ⟨costOp2 ldaAbsX rfl, costOp2 ldyAbsX rfl⟩,
    ⟨costOp2 ldaAbsY rfl, costOp2 ldxAbsY rfl⟩,
    costOp1 (indexedIndirectLoad o s.fetch.2) rfl,
    costOp1 (indirectIndexedLoad o s.fetch.2) rfl,
    step_cyc_of_not_load ht⟩

/-- Settles O37: a step runs one instruction from a cleared counter, which leaves legal flags; `fetch` overwrites `ir`
and `cyc`, and `execute` does not depend on `p`. -/
theorem stepForgetsEarlierFlagsAndCost : Obligations.StepForgetsEarlierFlagsAndCost := by
  unfold Obligations.StepForgetsEarlierFlagsAndCost
  intro s t hstep
  obtain ⟨i, hexec⟩ := step_eq_exec s
  have ht : exec i s.fetch.2 = .next t := hexec.symm.trans hstep
  have hcyc : t.cyc ≤ 6 := by simpa using exec_cyc_le ht
  exact ⟨exec_flagsLegal ht, hcyc, fun q _ _ => (earlierFlagsNeverMatter.2 s.fetch.2 q).trans hstep⟩

/-- Settles O46: every host operation keeps the canonical form and the legal flags, each for its own reason. -/
theorem hostOperationsKeepInvariant : Obligations.HostOperationsKeepInvariant := by
  unfold Obligations.HostOperationsKeepInvariant
  rintro op s t ⟨hwf, hflags⟩ ht
  obtain ⟨u, hu, hwf'⟩ := hostOp_keeps_wf op s hwf
  obtain ⟨w, hw, hflags'⟩ := hostOp_keeps_flagsLegal op s hflags
  obtain rfl := Host.Outcome.next.inj (hu.symm.trans ht)
  obtain rfl := Host.Outcome.next.inj (hw.symm.trans ht)
  exact ⟨hwf', hflags'⟩

end Sys2Proof.Proofs
end
